-- ==== Sys2Proof/Word.lean ====
section
/-! DEFINITION. The word types of the machine (spec/00_scope.md R4: data is 8 bits, addresses are 16 bits). -/

namespace Sys2Proof

/-- A register, a timer, a byte of memory: 8 bits (R4, XLEN). -/
abbrev Byte := BitVec 8

/-- `I`, `pc`, a stack entry, an instruction word: 16 bits (R4, ALEN; R60). -/
abbrev Word := BitVec 16

/-- A register index, the field `x` or `y` (R61). -/
abbrev Reg := BitVec 4

/-- The field `n`: a sprite height (R61). -/
abbrev Nibble := BitVec 4

/-- The field `nnn`: a 12-bit address (R61). -/
abbrev Addr := BitVec 12

/-- The input snapshot: bit `i` is key `i` (R20). -/
abbrev KeySet := BitVec 16

/-- The display, 2048 one-bit pixels; pixel `(x, y)` is bit `x + 64*y` (R19, R130). -/
abbrev Screen := BitVec 2048

end Sys2Proof
end

