-- ==== Sys2Proof/Config.lean ====
section
/-! DEFINITION. What the platform fixes (spec/00_scope.md R4), and the free values. -/

namespace Sys2Proof

/-- The platform parameters FONT_BASE and FONT_DATA (R4, R182): constants of a run that the host supplies at RESET
(R167, R180). A statement about every state holds for every value of them. -/
structure Platform where
  /-- The address of glyph 0. -/
  fontBase : Word
  /-- The 80 glyph bytes; glyph `d` is bytes `5d` to `5d + 4`. -/
  fontData : Vector Byte 80
  deriving DecidableEq, Repr

/-- The largest program image, `4096 - 0x200` bytes (R4, R183). -/
def Config.progMax : Nat := 3584

/-- The load address of the program and the reset value of `pc` (R4, R42). -/
def Config.progBase : Word := 0x200#16

/-- Glyphs 0 to 7 of the spec's default font (R182). -/
def Config.glyphs0to7 : List Byte :=
  [0xF0#8, 0x90#8, 0x90#8, 0x90#8, 0xF0#8] ++ [0x20#8, 0x60#8, 0x20#8, 0x20#8, 0x70#8] ++
  [0xF0#8, 0x10#8, 0xF0#8, 0x80#8, 0xF0#8] ++ [0xF0#8, 0x10#8, 0xF0#8, 0x10#8, 0xF0#8] ++
  [0x90#8, 0x90#8, 0xF0#8, 0x10#8, 0x10#8] ++ [0xF0#8, 0x80#8, 0xF0#8, 0x10#8, 0xF0#8] ++
  [0xF0#8, 0x80#8, 0xF0#8, 0x90#8, 0xF0#8] ++ [0xF0#8, 0x10#8, 0x20#8, 0x40#8, 0x40#8]

/-- Glyphs 8 to F of the spec's default font (R182). -/
def Config.glyphs8toF : List Byte :=
  [0xF0#8, 0x90#8, 0xF0#8, 0x90#8, 0xF0#8] ++ [0xF0#8, 0x90#8, 0xF0#8, 0x10#8, 0xF0#8] ++
  [0xF0#8, 0x90#8, 0xF0#8, 0x90#8, 0x90#8] ++ [0xE0#8, 0x90#8, 0xE0#8, 0x90#8, 0xE0#8] ++
  [0xF0#8, 0x80#8, 0x80#8, 0x80#8, 0xF0#8] ++ [0xE0#8, 0x90#8, 0x90#8, 0x90#8, 0xE0#8] ++
  [0xF0#8, 0x80#8, 0xF0#8, 0x80#8, 0xF0#8] ++ [0xF0#8, 0x80#8, 0xF0#8, 0x80#8, 0x80#8]

/-- The platform the spec gives as its default: FONT_BASE 0x050 and the table of R182. PRESUMED: the bytes are the
spec's own general knowledge (decision D6); log entry 5. -/
def Config.defaultPlatform : Platform :=
  { fontBase := 0x050#16, fontData := ⟨⟨Config.glyphs0to7 ++ Config.glyphs8toF⟩, by decide⟩ }

/-- RAND(j): the byte the outside delivers to the `j`-th executed `Cxnn` (R4, R146). A free value: it has no body,
and every claim holds for every sequence of bytes. Log entry 3. -/
opaque Config.rand : Nat → Byte

/-- K(0): the input snapshot in force at the first reset (R20, R166, decision D16). A free value; log entry 4. -/
opaque Config.firstSnapshot : KeySet

end Sys2Proof
end

