-- ==== Sys2Proof/Syntax.lean ====
section
/-! DEFINITION. The instructions: one constructor for each of the 34 rows of spec/30_encoding.md R65, in its order.

Each operand has exactly the width of its field (R61), so no constructor can hold an operand out of range. -/

namespace Sys2Proof

/-- The instruction set (R65). A constructor's docstring gives the row's pattern and the rule of its meaning. -/
inductive Instr where
  /-- `00E0`, R131. -/
  | cls
  /-- `00EE`, R90. -/
  | ret
  /-- `1nnn`, R91. -/
  | jp (nnn : Addr)
  /-- `2nnn`, R92. -/
  | call (nnn : Addr)
  /-- `3xnn`, R93. -/
  | seImm (x : Reg) (nn : Byte)
  /-- `4xnn`, R94. -/
  | sneImm (x : Reg) (nn : Byte)
  /-- `5xy0`, R95. -/
  | seReg (x y : Reg)
  /-- `6xnn`, R101. -/
  | ldImm (x : Reg) (nn : Byte)
  /-- `7xnn`, R102. -/
  | addImm (x : Reg) (nn : Byte)
  /-- `8xy0`, R103. -/
  | ldReg (x y : Reg)
  /-- `8xy1`, R104. -/
  | orReg (x y : Reg)
  /-- `8xy2`, R105. -/
  | andReg (x y : Reg)
  /-- `8xy3`, R106. -/
  | xorReg (x y : Reg)
  /-- `8xy4`, R107. -/
  | addReg (x y : Reg)
  /-- `8xy5`, R108. -/
  | sub (x y : Reg)
  /-- `8xy6`, R109; `y` is decoded and has no effect. -/
  | shr (x y : Reg)
  /-- `8xy7`, R110. -/
  | subn (x y : Reg)
  /-- `8xyE`, R111; `y` is decoded and has no effect. -/
  | shl (x y : Reg)
  /-- `9xy0`, R96. -/
  | sneReg (x y : Reg)
  /-- `Annn`, R120. -/
  | ldI (nnn : Addr)
  /-- `Bnnn`, R97. -/
  | jpV0 (nnn : Addr)
  /-- `Cxnn`, R146. -/
  | rnd (x : Reg) (nn : Byte)
  /-- `Dxyn`, R132. -/
  | drw (x y : Reg) (n : Nibble)
  /-- `Ex9E`, R140. -/
  | skp (x : Reg)
  /-- `ExA1`, R141. -/
  | sknp (x : Reg)
  /-- `Fx07`, R143. -/
  | ldVxDt (x : Reg)
  /-- `Fx0A`, R142. -/
  | ldVxK (x : Reg)
  /-- `Fx15`, R144. -/
  | ldDtVx (x : Reg)
  /-- `Fx18`, R145. -/
  | ldStVx (x : Reg)
  /-- `Fx1E`, R121. -/
  | addI (x : Reg)
  /-- `Fx29`, R122. -/
  | ldF (x : Reg)
  /-- `Fx33`, R123. -/
  | ldB (x : Reg)
  /-- `Fx55`, R124. -/
  | storeRegs (x : Reg)
  /-- `Fx65`, R125. -/
  | loadRegs (x : Reg)
  deriving DecidableEq, Repr

end Sys2Proof
end

