-- ==== Sys2Proof/WellFormed.lean ====
section
/-! DEFINITION. What must hold of the data handed to the block: instructions, platform parameters, program images. -/

namespace Sys2Proof

/-- An instruction is well formed when each operand lies in its field: a register index below 16, a byte below 256, an
address below 4096, a height below 16 (R61, R63). -/
def Instr.WellFormed : Instr → Prop
  | .cls | .ret => True
  | .jp nnn | .call nnn | .ldI nnn | .jpV0 nnn => nnn.toNat < 4096
  | .seImm x nn | .sneImm x nn | .ldImm x nn | .addImm x nn | .rnd x nn => x.toNat < 16 ∧ nn.toNat < 256
  | .seReg x y | .sneReg x y | .ldReg x y | .orReg x y | .andReg x y | .xorReg x y | .addReg x y | .sub x y
  | .shr x y | .subn x y | .shl x y => x.toNat < 16 ∧ y.toNat < 16
  | .drw x y n => x.toNat < 16 ∧ y.toNat < 16 ∧ n.toNat < 16
  | .skp x | .sknp x | .ldVxDt x | .ldVxK x | .ldDtVx x | .ldStVx x | .addI x | .ldF x | .ldB x | .storeRegs x
  | .loadRegs x => x.toNat < 16

/-- The font lies inside the reserved range: `FONT_BASE + 79 <= 0x1FF` (R182). -/
def Platform.wellFormed (p : Platform) : Bool :=
  decide (p.fontBase.toNat + 79 ≤ 0x1FF)

/-- A program image is accepted when it has at most 3584 bytes (R183). -/
def Config.programFits (program : List Byte) : Bool :=
  decide (program.length ≤ Config.progMax)

end Sys2Proof
end

