-- ==== Sys2Proof/Decode.lean ====
section
/-! DEFINITION. The decoder, total on any bytes and rejecting by name, and the encoder (spec/30_encoding.md). -/

namespace Sys2Proof

/-! ## Fields (R61) -/

/-- `iw[15:12]`. -/
def opField (iw : Word) : Nibble := iw.extractLsb' 12 4
/-- `iw[11:8]`. -/
def xField (iw : Word) : Reg := iw.extractLsb' 8 4
/-- `iw[7:4]`. -/
def yField (iw : Word) : Reg := iw.extractLsb' 4 4
/-- `iw[3:0]`. -/
def nField (iw : Word) : Nibble := iw.extractLsb' 0 4
/-- `iw[7:0]`. -/
def nnField (iw : Word) : Byte := iw.extractLsb' 0 8
/-- `iw[11:0]`. -/
def nnnField (iw : Word) : Addr := iw.extractLsb' 0 12

/-- The instruction word of two fetched bytes, the first one the high byte (R45). -/
def wordOfBytes (hi lo : Byte) : Word := hi ++ lo
/-- The byte stored at the lower address (R45). -/
def highByte (iw : Word) : Byte := iw.extractLsb' 8 8
/-- The byte stored at the higher address (R45). -/
def lowByte (iw : Word) : Byte := iw.extractLsb' 0 8

/-! ## Decoding (R64 to R66) -/

/-- Primary opcode 8 selects on `n` (R64, R112). -/
def decodeAlu (x y : Reg) (n : Nibble) : Option Instr :=
  match n with
  | 0x0#4 => some (.ldReg x y)
  | 0x1#4 => some (.orReg x y)
  | 0x2#4 => some (.andReg x y)
  | 0x3#4 => some (.xorReg x y)
  | 0x4#4 => some (.addReg x y)
  | 0x5#4 => some (.sub x y)
  | 0x6#4 => some (.shr x y)
  | 0x7#4 => some (.subn x y)
  | 0xE#4 => some (.shl x y)
  | _ => none

/-- Primary opcode E selects on `nn` (R64). -/
def decodeKeys (x : Reg) (nn : Byte) : Option Instr :=
  match nn with
  | 0x9E#8 => some (.skp x)
  | 0xA1#8 => some (.sknp x)
  | _ => none

/-- Primary opcode F selects on `nn` (R64). -/
def decodeMisc (x : Reg) (nn : Byte) : Option Instr :=
  match nn with
  | 0x07#8 => some (.ldVxDt x)
  | 0x0A#8 => some (.ldVxK x)
  | 0x15#8 => some (.ldDtVx x)
  | 0x18#8 => some (.ldStVx x)
  | 0x1E#8 => some (.addI x)
  | 0x29#8 => some (.ldF x)
  | 0x33#8 => some (.ldB x)
  | 0x55#8 => some (.storeRegs x)
  | 0x65#8 => some (.loadRegs x)
  | _ => none

/-- Primary opcode 0 selects on the whole word (R64); the argument is `nnn`. -/
def decodeZero (nnn : Addr) : Option Instr :=
  match nnn with
  | 0x0E0#12 => some .cls
  | 0x0EE#12 => some .ret
  | _ => none

/-- The instruction a word stands for, or none when it matches no pattern (R64, R65, R66). -/
def decodeWord (iw : Word) : Option Instr :=
  match opField iw with
  | 0x0#4 => decodeZero (nnnField iw)
  | 0x1#4 => some (.jp (nnnField iw))
  | 0x2#4 => some (.call (nnnField iw))
  | 0x3#4 => some (.seImm (xField iw) (nnField iw))
  | 0x4#4 => some (.sneImm (xField iw) (nnField iw))
  | 0x5#4 => if nField iw = 0#4 then some (.seReg (xField iw) (yField iw)) else none
  | 0x6#4 => some (.ldImm (xField iw) (nnField iw))
  | 0x7#4 => some (.addImm (xField iw) (nnField iw))
  | 0x8#4 => decodeAlu (xField iw) (yField iw) (nField iw)
  | 0x9#4 => if nField iw = 0#4 then some (.sneReg (xField iw) (yField iw)) else none
  | 0xA#4 => some (.ldI (nnnField iw))
  | 0xB#4 => some (.jpV0 (nnnField iw))
  | 0xC#4 => some (.rnd (xField iw) (nnField iw))
  | 0xD#4 => some (.drw (xField iw) (yField iw) (nField iw))
  | 0xE#4 => decodeKeys (xField iw) (nnField iw)
  | 0xF#4 => decodeMisc (xField iw) (nnField iw)
  | _ => none

/-- Why bytes are no instruction. -/
inductive DecodeError where
  /-- Fewer than the two bytes every instruction has (R60). -/
  | truncated
  /-- The word matches no row of the opcode map (R66). -/
  | unknownOpcode (iw : Word)
  deriving DecidableEq, Repr

/-- The decoder's answer: an instruction and the bytes after it, or a rejection by name. -/
inductive Decoded where
  | ok (i : Instr) (rest : List Byte)
  | rejected (why : DecodeError)
  deriving DecidableEq, Repr

/-- The decoder on any bytes: every instruction is two bytes, high byte first (R45, R60). -/
def decode : List Byte → Decoded
  | hi :: lo :: rest =>
    match decodeWord (wordOfBytes hi lo) with
    | some i => .ok i rest
    | none => .rejected (.unknownOpcode (wordOfBytes hi lo))
  | _ => .rejected .truncated

/-- The two bytes of an instruction whose low `nbits` bits are those of `w`, as memory holds them. -/
def tableBytes (nbits w : Nat) : List Byte :=
  [highByte (BitVec.ofNat 16 (w % 2 ^ nbits)), lowByte (BitVec.ofNat 16 (w % 2 ^ nbits))]

/-- The instruction the decoder reads from the bits `w`, numbered as spec/opcode_table.json numbers them. -/
def decodeTableWord (nbits w : Nat) : Option Instr :=
  match decode (tableBytes nbits w) with
  | .ok i _ => some i
  | .rejected _ => none

/-! ## Encoding (R62, R65) -/

/-- Formats Z and NNN: a primary opcode and 12 bits. -/
def wordNnn (op : Nibble) (nnn : Addr) : Word := op ++ nnn
/-- Formats XNN and XS: a primary opcode, a register and 8 bits. -/
def wordXnn (op : Nibble) (x : Reg) (nn : Byte) : Word := op ++ x ++ nn
/-- Formats XY and XYN: a primary opcode, two registers and 4 bits. -/
def wordXyn (op : Nibble) (x y : Reg) (n : Nibble) : Word := op ++ x ++ y ++ n

/-- The instruction's word, written from the patterns of R65. -/
def encode : Instr → Word
  | .cls => 0x00E0#16
  | .ret => 0x00EE#16
  | .jp nnn => wordNnn 0x1#4 nnn
  | .call nnn => wordNnn 0x2#4 nnn
  | .seImm x nn => wordXnn 0x3#4 x nn
  | .sneImm x nn => wordXnn 0x4#4 x nn
  | .seReg x y => wordXyn 0x5#4 x y 0x0#4
  | .ldImm x nn => wordXnn 0x6#4 x nn
  | .addImm x nn => wordXnn 0x7#4 x nn
  | .ldReg x y => wordXyn 0x8#4 x y 0x0#4
  | .orReg x y => wordXyn 0x8#4 x y 0x1#4
  | .andReg x y => wordXyn 0x8#4 x y 0x2#4
  | .xorReg x y => wordXyn 0x8#4 x y 0x3#4
  | .addReg x y => wordXyn 0x8#4 x y 0x4#4
  | .sub x y => wordXyn 0x8#4 x y 0x5#4
  | .shr x y => wordXyn 0x8#4 x y 0x6#4
  | .subn x y => wordXyn 0x8#4 x y 0x7#4
  | .shl x y => wordXyn 0x8#4 x y 0xE#4
  | .sneReg x y => wordXyn 0x9#4 x y 0x0#4
  | .ldI nnn => wordNnn 0xA#4 nnn
  | .jpV0 nnn => wordNnn 0xB#4 nnn
  | .rnd x nn => wordXnn 0xC#4 x nn
  | .drw x y n => wordXyn 0xD#4 x y n
  | .skp x => wordXnn 0xE#4 x 0x9E#8
  | .sknp x => wordXnn 0xE#4 x 0xA1#8
  | .ldVxDt x => wordXnn 0xF#4 x 0x07#8
  | .ldVxK x => wordXnn 0xF#4 x 0x0A#8
  | .ldDtVx x => wordXnn 0xF#4 x 0x15#8
  | .ldStVx x => wordXnn 0xF#4 x 0x18#8
  | .addI x => wordXnn 0xF#4 x 0x1E#8
  | .ldF x => wordXnn 0xF#4 x 0x29#8
  | .ldB x => wordXnn 0xF#4 x 0x33#8
  | .storeRegs x => wordXnn 0xF#4 x 0x55#8
  | .loadRegs x => wordXnn 0xF#4 x 0x65#8

/-- The bytes of an instruction as memory holds them (R45, R60). -/
def encodeBytes (i : Instr) : List Byte := [highByte (encode i), lowByte (encode i)]

/-! ## The opcode map's masks (R62, R65) -/

/-- The mask of an instruction's row: which bits of the word its pattern fixes (R62). -/
def rowMask : Instr → Word
  | .cls | .ret => 0xFFFF#16
  | .jp _ | .call _ | .ldI _ | .jpV0 _ => 0xF000#16
  | .seImm _ _ | .sneImm _ _ | .ldImm _ _ | .addImm _ _ | .rnd _ _ => 0xF000#16
  | .seReg _ _ | .sneReg _ _ | .ldReg _ _ | .orReg _ _ | .andReg _ _ | .xorReg _ _ | .addReg _ _ | .sub _ _
  | .shr _ _ | .subn _ _ | .shl _ _ => 0xF00F#16
  | .drw _ _ _ => 0xF000#16
  | .skp _ | .sknp _ | .ldVxDt _ | .ldVxK _ | .ldDtVx _ | .ldStVx _ | .addI _ | .ldF _ | .ldB _ | .storeRegs _
  | .loadRegs _ => 0xF0FF#16

/-- The fixed bits of an instruction's row, the column `match` of R65. -/
def rowMatch : Instr → Word
  | .cls => 0x00E0#16
  | .ret => 0x00EE#16
  | .jp _ => 0x1000#16
  | .call _ => 0x2000#16
  | .seImm _ _ => 0x3000#16
  | .sneImm _ _ => 0x4000#16
  | .seReg _ _ => 0x5000#16
  | .ldImm _ _ => 0x6000#16
  | .addImm _ _ => 0x7000#16
  | .ldReg _ _ => 0x8000#16
  | .orReg _ _ => 0x8001#16
  | .andReg _ _ => 0x8002#16
  | .xorReg _ _ => 0x8003#16
  | .addReg _ _ => 0x8004#16
  | .sub _ _ => 0x8005#16
  | .shr _ _ => 0x8006#16
  | .subn _ _ => 0x8007#16
  | .shl _ _ => 0x800E#16
  | .sneReg _ _ => 0x9000#16
  | .ldI _ => 0xA000#16
  | .jpV0 _ => 0xB000#16
  | .rnd _ _ => 0xC000#16
  | .drw _ _ _ => 0xD000#16
  | .skp _ => 0xE09E#16
  | .sknp _ => 0xE0A1#16
  | .ldVxDt _ => 0xF007#16
  | .ldVxK _ => 0xF00A#16
  | .ldDtVx _ => 0xF015#16
  | .ldStVx _ => 0xF018#16
  | .addI _ => 0xF01E#16
  | .ldF _ => 0xF029#16
  | .ldB _ => 0xF033#16
  | .storeRegs _ => 0xF055#16
  | .loadRegs _ => 0xF065#16

end Sys2Proof
end

