-- ==== Sys2Proof/Machine/State.lean ====
section
/-! DEFINITION. The state of the block (spec/10_state.md), its fault record, the host's events, and the reset state. -/

namespace Sys2Proof.Machine

/-- Whether the block runs (R21). -/
inductive Run where
  | running
  | halted
  deriving DecidableEq, Repr

/-- The six causes of `OutOfBounds` (R151). -/
inductive Cause where
  | fetch
  | memRead
  | memWrite
  | stackOverflow
  | stackUnderflow
  | keyIndex
  deriving DecidableEq, Repr

/-- The diagnostic record a fatal error leaves (R21, R151 to R153). A field that a kind of error does not use is not
there; the numbers of R153 are in Machine/Ports.lean. -/
inductive FaultRecord where
  /-- `OutOfBounds`: the offending address or index, the instruction word (none for FETCH), the step's `pc`. -/
  | outOfBounds (cause : Cause) (addr : Word) (iw : Option Word) (pc : Word)
  /-- `UnknownOpcode`: the word and its address (R152). -/
  | unknownOpcode (iw pc : Word)
  deriving DecidableEq, Repr

/-- The three events of the host (R80) with the inputs that come with each (R167). -/
inductive Event where
  /-- Run one step (R81). -/
  | exec
  /-- End of an outer tick, with the snapshot for the next tick (R161). -/
  | tick (snapshot : KeySet)
  /-- Reset, with the platform parameters, the program image (none: the file is missing) and the first snapshot (R180,
  R183). -/
  | reset (platform : Platform) (program : Option (List Byte)) (snapshot : KeySet)
  deriving DecidableEq, Repr

/-- Memory: the (address, byte) pairs that differ from what an unlisted address reads as, addresses strictly rising. -/
abbrev Memory := List Host.Cell

/-- The state of the block (R10 to R21, R25), and three fields of the model's own: `platform`, `draws`, `pending`. -/
structure State where
  /-- `V0` to `VF`; `VF` is the flag (R10, R11). -/
  v : Vector Byte 16
  /-- The address register `I` (R12). -/
  i : Word
  /-- The program counter (R13). -/
  pc : Word
  /-- The stack pointer: the number of live stack entries (R14). -/
  sp : Byte
  /-- The call stack (R15). -/
  stack : Vector Word 16
  /-- The delay timer (R16). -/
  dt : Byte
  /-- The sound timer (R17). -/
  st : Byte
  /-- The 4096 bytes of memory (R18, R40). -/
  mem : Memory
  /-- The display (R19). -/
  disp : Screen
  /-- The latched input snapshot (R20). -/
  keys : KeySet
  /-- RUNNING or HALTED (R21). -/
  run : Run
  /-- The fault record, or none (R21). -/
  fault : Option FaultRecord
  /-- The model's own: the platform parameters of this run (R4, R182), set by RESET and constant otherwise. Log entry 5. -/
  platform : Platform
  /-- The model's own: how many `Cxnn` have run, the index of the next random byte (R146). Log entry 3. -/
  draws : Nat
  /-- The model's own: the events the host has issued and the block has not taken yet (R80). Log entry 2. -/
  pending : List Event
  deriving DecidableEq, Repr

/-- What stops the model itself. The block's own fatal errors are not here: they are next states (R154). -/
inductive Fault where
  /-- Raised by CALL and RET when `SP` is above 16, a value R14 calls unreachable and for which the spec gives no effect.
  Safe: the model stops where the hardware cannot be. Log entry 7. -/
  | stackPointer (sp : Byte)
  /-- Raised by RESET when the program is missing (none) or longer than 3584 bytes (its length): `LoadError`, no state
  comes to exist (R183). Safe: there is no next state to be wrong about. Log entry 8. -/
  | loadError (length : Option Nat)
  /-- Raised by RESET when the font would leave the reserved range, which R182 excludes. Safe: the spec gives such a
  platform no behaviour. Log entry 8. -/
  | fontBase (base : Word)
  deriving DecidableEq, Repr

/-- What the model gives no meaning. -/
inductive Refusal where
  /-- Raised by an arm of `exec` whose instruction has no meaning yet; no arm is one. Safe: nothing follows from it. -/
  | notModelled (mnemonic : String)
  deriving DecidableEq, Repr

/-- The answer of a step. -/
abbrev Result := Host.Outcome State Fault Refusal

/-- The registers, stack, display and run state of R180 and R25, with memory at its content without a program. UNVERIFIED:
stack, display and fault record are decisions D17 and D19; log entry 21. -/
def State.boot (platform : Platform) (snapshot : KeySet) (draws : Nat) (pending : List Event) : State :=
  { v := Vector.replicate 16 0#8
    i := 0#16
    pc := Config.progBase
    sp := 0#8
    stack := Vector.replicate 16 0#16
    dt := 0#8
    st := 0#8
    mem := []
    disp := 0#2048
    keys := snapshot
    run := .running
    fault := none
    platform := platform
    draws := draws
    pending := pending }

/-- The machine right after reset (R25, R180): no program, the default platform, a free first snapshot, no event issued
yet. -/
def State.reset : State := State.boot Config.defaultPlatform Config.firstSnapshot 0 []

end Sys2Proof.Machine
end

