-- ==== Sys2Proof/Machine/Memory.lean ====
section
/-! DEFINITION. Memory as data: what an unlisted address reads as, reading, writing, the canonical form (R40 to R42). -/

namespace Sys2Proof.Machine

/-- The number of bytes of memory (R40). -/
def Memory.size : Nat := 4096

/-- What an address reads as that no write has changed since reset, where no program byte is: the font at FONT_BASE, 0
elsewhere (R182). DEDUCED; log entry 6. -/
def Memory.unlisted (p : Platform) (a : Nat) : Byte :=
  if p.fontBase.toNat ≤ a then p.fontData.toList.getD (a - p.fontBase.toNat) 0#8 else 0#8

/-- The byte at an address (R41, in range). -/
def Memory.read (p : Platform) : Memory → Nat → Byte
  | [], a => Memory.unlisted p a
  | (b, v) :: m, a => if a = b then v else Memory.read p m a

/-- The memory with an address no longer listed. -/
def Memory.erase (m : Memory) (a : Nat) : Memory := m.filter (fun c => c.1 != a)

/-- The memory with an entry put before the first higher address. -/
def Memory.insert : Memory → Nat → Byte → Memory
  | [], a, x => [(a, x)]
  | (b, v) :: m, a, x => if b < a then (b, v) :: Memory.insert m a x else (a, x) :: (b, v) :: m

/-- The memory with one byte written, in canonical form (R41, in range): the value an unlisted address reads as is not
listed. -/
def Memory.write (p : Platform) (m : Memory) (a : Nat) (x : Byte) : Memory :=
  if x = Memory.unlisted p a then Memory.erase m a else Memory.insert (Memory.erase m a) a x

/-- Bytes written at ascending addresses from `a` (R46). -/
def Memory.writeBytes (p : Platform) : Memory → Nat → List Byte → Memory
  | m, _, [] => m
  | m, a, x :: xs => Memory.writeBytes p (Memory.write p m a x) (a + 1) xs

/-- Canonical from an address on: addresses rise strictly from `lo`, stay below 4096, and no entry repeats what its
address reads as unlisted. -/
def Memory.wfFrom (p : Platform) : Nat → Memory → Bool
  | _, [] => true
  | lo, (a, v) :: m =>
    decide (lo ≤ a) && decide (a < Memory.size) && decide (v ≠ Memory.unlisted p a) && Memory.wfFrom p (a + 1) m

/-- The canonical form of memory. -/
def Memory.wf (p : Platform) (m : Memory) : Bool := Memory.wfFrom p 0 m

end Sys2Proof.Machine
end

