-- ==== Sys2Proof/Machine/Ops.lean ====
section
/-! DEFINITION. The named operations over the state: registers, memory, stack, pc, fatal errors, reset. -/

namespace Sys2Proof.Machine

/-! ## Registers (R10) -/

/-- Read of `V[x]`. -/
def State.reg (s : State) (x : Reg) : Byte := s.v[x.toNat]

/-- Write of `V[x]`. No register is hardwired (R10). -/
def State.setReg (s : State) (x : Reg) (b : Byte) : State := { s with v := s.v.set x.toNat b }

/-- The flag register `VF` (R11). -/
def State.vf : Reg := 0xF#4

/-! ## The program counter (R85) -/

/-- The sequential class: `pc + 2`. -/
def State.advance (s : State) : State := { s with pc := s.pc + 2#16 }

/-- The skip class: `pc + 4` if the condition holds, else `pc + 2`. -/
def State.skipIf (s : State) (cond : Bool) : State := { s with pc := if cond then s.pc + 4#16 else s.pc + 2#16 }

/-- The absolute classes: `pc` becomes the target. -/
def State.jumpTo (s : State) (target : Word) : State := { s with pc := target }

/-! ## Memory (R41, R46, R48) -/

/-- The byte at an address below 4096. -/
def State.readByte (s : State) (a : Nat) : Byte := Memory.read s.platform s.mem a

/-- `n` bytes at ascending addresses. -/
def State.readBytes (s : State) (a : Nat) : Nat → List Byte
  | 0 => []
  | n + 1 => s.readByte a :: State.readBytes s (a + 1) n

/-- Bytes stored at ascending addresses. -/
def State.storeBytes (s : State) (a : Nat) (bytes : List Byte) : State :=
  { s with mem := Memory.writeBytes s.platform s.mem a bytes }

/-- The word the fetch forms: the byte at `pc` is the high one (R83). -/
def State.fetchWord (s : State) : Word :=
  wordOfBytes (s.readByte s.pc.toNat) (s.readByte (s.pc.toNat + 1))

/-- The fetch check: `pc` is even and `0x200 <= pc <= 0xFFE` (R82). UNVERIFIED: the spec's decision D3; log entry 11. -/
def State.fetchable (s : State) : Bool :=
  !s.pc.getLsbD 0 && decide (0x200 ≤ s.pc.toNat) && decide (s.pc.toNat ≤ 0xFFE)

/-! ## Register blocks (R124, R125) -/

/-- `V0` to `Vx`, in that order. -/
def State.regsUpTo (s : State) (x : Reg) : List Byte := s.v.toList.take (x.toNat + 1)

/-- Bytes loaded into consecutive registers, ascending from `V[r]`. -/
def State.setRegs (s : State) (r : Nat) : List Byte → State
  | [] => s
  | b :: bs => State.setRegs (s.setReg (BitVec.ofNat 4 r) b) (r + 1) bs

/-! ## Fatal errors (R87, R154 to R156) -/

/-- Taking a fatal error: the block halts and the record is written; nothing else changes, `pc` included. There is no
handler and no return from it (R155): only RESET, below, leaves the halted state. DEDUCED: the halted state is a next state
(R154, R156); log entry 1. -/
def State.raise (s : State) (r : FaultRecord) : State := { s with run := .halted, fault := some r }

/-- `raise OutOfBounds` from the instruction `i`: its word is recorded, which `encode` gives (R151). DEDUCED; log entry 9. -/
def State.raiseOob (s : State) (cause : Cause) (addr : Word) (i : Instr) : State :=
  s.raise (.outOfBounds cause addr (some (encode i)) s.pc)

/-! ## Reset (R180 to R183, R191) -/

/-- The state after a RESET that loads a program: R180's values, the program's bytes at 0x200. The random input goes on
where it was and the host's queue is the host's (log entries 3 and 2). -/
def State.load (s : State) (p : Platform) (program : List Byte) (snapshot : KeySet) : State :=
  (State.boot p snapshot s.draws s.pending).storeBytes Config.progBase.toNat program

/-- The RESET event with its preconditions (R182, R183). DEDUCED: without them there is no next state (decision D27); log
entry 8. -/
def State.resetEvent (s : State) (p : Platform) (program : Option (List Byte)) (snapshot : KeySet) : Result :=
  match program with
  | none => .fault (.loadError none)
  | some bytes =>
    if Config.programFits bytes then
      if p.wellFormed then .next (s.load p bytes snapshot) else .fault (.fontBase p.fontBase)
    else .fault (.loadError (some bytes.length))

/-! ## Timers and keys (R161) -/

/-- One decrement that stops at 0. -/
def countDown (t : Byte) : Byte := if t = 0#8 then 0#8 else t - 1#8

/-- The timers' part of TICK. -/
def State.decrementTimers (s : State) : State := { s with dt := countDown s.dt, st := countDown s.st }

/-- The key latch's part of TICK. -/
def State.latchKeys (s : State) (snapshot : KeySet) : State := { s with keys := snapshot }

/-- The state in the middle of a TICK, when the host reads the display: the timers are down by one, in HALTED they stop
(R88, R161). -/
def State.midTick (s : State) : State := if s.run = .halted then s else s.decrementTimers

/-- The TICK event: nothing in HALTED (R88), else timers, hand-off of the display (which changes nothing in the block),
then the new snapshot (R161). -/
def State.tick (s : State) (snapshot : KeySet) : State :=
  if s.run = .halted then s else s.decrementTimers.latchKeys snapshot

end Sys2Proof.Machine
end

