-- ==== Sys2Proof/Machine/Flags.lean ====
section
/-! DEFINITION. The values written to `VF` (spec/10_state.md R11, spec/42_alu.md R100). -/

namespace Sys2Proof.Machine

/-- A flag is the 8-bit value 0 or 1 (R11). -/
def flagByte (b : Bool) : Byte := if b then 1#8 else 0#8

/-- The carry of an addition: the unsigned sum exceeds 255 (R107). -/
def carryFlag (a b : Byte) : Byte := flagByte (decide (a.toNat + b.toNat > 255))

/-- The no-borrow flag of `a - b`: `a >= b` (R108, R110). -/
def noBorrowFlag (a b : Byte) : Byte := flagByte (decide (a.toNat ≥ b.toNat))

/-- The bit a right shift by one loses: bit 0 (R109). -/
def shiftedOutRight (a : Byte) : Byte := flagByte (a.getLsbD 0)

/-- The bit a left shift by one loses: bit 7 (R111). -/
def shiftedOutLeft (a : Byte) : Byte := flagByte (a.getLsbD 7)

/-- The flag write (R11). -/
def State.setFlag (s : State) (f : Byte) : State := s.setReg State.vf f

end Sys2Proof.Machine
end

