-- ==== Sys2Proof/Machine/Operands.lean ====
section
/-! DEFINITION. Operand forms: immediates, effective addresses and their bounds check, glyph addresses, key numbers
(spec/30_encoding.md R63, spec/43_index_memory.md R126). -/

namespace Sys2Proof.Machine

/-- A 12-bit address zero-extended to 16 bits (R63). -/
def zextAddr (nnn : Addr) : Word := nnn.setWidth 16

/-- An 8-bit register value zero-extended to 16 bits. -/
def zextByte (b : Byte) : Word := b.setWidth 16

/-- All of the `n` addresses `I`, ..., `I + n - 1` are below 4096; the sum is unbounded (R41, R126). With `n = 0` no
address is touched and nothing is checked (R132). UNVERIFIED: no wrap before the check is decision D10, `n = 0` decision
D9; log entries 13 and 20. -/
def State.inRange (s : State) (n : Nat) : Bool := decide (n = 0) || decide (s.i.toNat + n ≤ Memory.size)

/-- The lowest out-of-range address: `max(I, 4096)` (R151). -/
def State.lowestBad (s : State) : Word := if s.i.toNat < Memory.size then 0x1000#16 else s.i

/-- An instruction that touches `n` bytes from `I`: its effect if they are all in range, else the fatal error, nothing
of the effect done (R87, R151). UNVERIFIED: precise faults are decision D11; log entry 13. -/
def State.withRange (s : State) (n : Nat) (cause : Cause) (i : Instr) (effect : State) : State :=
  if s.inRange n then effect else s.raiseOob cause s.lowestBad i

/-- The address of glyph `b`: `FONT_BASE + 5 * b`, the whole 8-bit value used (R122). UNVERIFIED: decision
D5; log entry 5. -/
def State.glyphAddr (s : State) (b : Byte) : Word := s.platform.fontBase + 5#16 * zextByte b

/-- A key skip: the key numbered `k` must be below 16 (R140, R141). UNVERIFIED: decision D12; log entry
14. -/
def State.withKey (s : State) (k : Byte) (i : Instr) (effect : State) : State :=
  if k.toNat ≤ 15 then effect else s.raiseOob .keyIndex (zextByte k) i

/-- Whether key `k` is held in the latched snapshot (R20). -/
def State.keyHeld (s : State) (k : Byte) : Bool := s.keys.getLsbD k.toNat

/-- The lowest held key, if any is held (R147). UNVERIFIED: decision D13; log entry 14. -/
def State.lowestKey (s : State) : Option Nat := (List.range 16).find? (fun k => s.keys.getLsbD k)

/-- The three decimal digits of a byte: hundreds, tens, ones (R123). -/
def decimalDigits (b : Byte) : List Byte :=
  [BitVec.ofNat 8 (b.toNat / 100), BitVec.ofNat 8 (b.toNat / 10 % 10), BitVec.ofNat 8 (b.toNat % 10)]

end Sys2Proof.Machine
end

