-- ==== Sys2Proof/Machine/Alu.lean ====
section
/-! DEFINITION. Register loads and the 8-bit ALU (spec/42_alu.md). The two writes of a flag-writing instruction come in
the order of its rule and each sees the ones before it (R86). UNVERIFIED: that order is the spec's decision D1, visible
with `x = 15` alone; log entry 10. -/

namespace Sys2Proof.Machine

/-- `6xnn` (R101). -/
def execLdImm (x : Reg) (nn : Byte) (s : State) : Result := .next (s.setReg x nn).advance

/-- `7xnn`: no flag (R102). -/
def execAddImm (x : Reg) (nn : Byte) (s : State) : Result := .next (s.setReg x (s.reg x + nn)).advance

/-- `8xy0` (R103). -/
def execLdReg (x y : Reg) (s : State) : Result := .next (s.setReg x (s.reg y)).advance

/-- `8xy1`: no flag (R104). -/
def execOrReg (x y : Reg) (s : State) : Result := .next (s.setReg x (s.reg x ||| s.reg y)).advance

/-- `8xy2`: no flag (R105). -/
def execAndReg (x y : Reg) (s : State) : Result := .next (s.setReg x (s.reg x &&& s.reg y)).advance

/-- `8xy3`: no flag (R106). -/
def execXorReg (x y : Reg) (s : State) : Result := .next (s.setReg x (s.reg x ^^^ s.reg y)).advance

/-- `8xy4`: the sum, then the carry (R107). -/
def execAddReg (x y : Reg) (s : State) : Result :=
  .next ((s.setReg x (s.reg x + s.reg y)).setFlag (carryFlag (s.reg x) (s.reg y))).advance

/-- `8xy5`: the difference, then the no-borrow flag (R108). -/
def execSub (x y : Reg) (s : State) : Result :=
  .next ((s.setReg x (s.reg x - s.reg y)).setFlag (noBorrowFlag (s.reg x) (s.reg y))).advance

/-- `8xy6`: the flag, then the shift of the register as it then is (R109); `y` has no effect. -/
def execShr (x _y : Reg) (s : State) : Result :=
  let flagged := s.setFlag (shiftedOutRight (s.reg x))
  .next (flagged.setReg x (flagged.reg x >>> 1)).advance

/-- `8xy7`: the reverse difference, then the no-borrow flag (R110). -/
def execSubn (x y : Reg) (s : State) : Result :=
  .next ((s.setReg x (s.reg y - s.reg x)).setFlag (noBorrowFlag (s.reg y) (s.reg x))).advance

/-- `8xyE`: the flag, then the shift of the register as it then is (R111); `y` has no effect. -/
def execShl (x _y : Reg) (s : State) : Result :=
  let flagged := s.setFlag (shiftedOutLeft (s.reg x))
  .next (flagged.setReg x (flagged.reg x <<< 1)).advance

end Sys2Proof.Machine
end

