-- ==== Sys2Proof/Machine/Control.lean ====
section
/-! DEFINITION. Control transfer (spec/41_control_transfer.md). -/

namespace Sys2Proof.Machine

/-- `00EE`: pops the return address; with no pending call it is a STACK_UNDERFLOW (R90). -/
def execRet (s : State) : Result :=
  if s.sp = 0#8 then .next (s.raiseOob .stackUnderflow 0#16 .ret)
  else if h : s.sp.toNat ≤ 16 then
    .next ({ s with sp := s.sp - 1#8 }.jumpTo (s.stack[s.sp.toNat - 1]'(by omega)))
  else .fault (.stackPointer s.sp)

/-- `1nnn` (R91). -/
def execJp (nnn : Addr) (s : State) : Result := .next (s.jumpTo (zextAddr nnn))

/-- `2nnn`: pushes `pc + 2`; with 16 live entries it is a STACK_OVERFLOW (R92). UNVERIFIED: what is pushed is
decision D4; log entry 17. -/
def execCall (nnn : Addr) (s : State) : Result :=
  if s.sp = 16#8 then .next (s.raiseOob .stackOverflow 16#16 (.call nnn))
  else if h : s.sp.toNat < 16 then
    .next ({ s with stack := s.stack.set s.sp.toNat (s.pc + 2#16), sp := s.sp + 1#8 }.jumpTo (zextAddr nnn))
  else .fault (.stackPointer s.sp)

/-- `3xnn` (R93). -/
def execSeImm (x : Reg) (nn : Byte) (s : State) : Result := .next (s.skipIf (s.reg x == nn))

/-- `4xnn` (R94). -/
def execSneImm (x : Reg) (nn : Byte) (s : State) : Result := .next (s.skipIf (s.reg x != nn))

/-- `5xy0` (R95). -/
def execSeReg (x y : Reg) (s : State) : Result := .next (s.skipIf (s.reg x == s.reg y))

/-- `9xy0` (R96). -/
def execSneReg (x y : Reg) (s : State) : Result := .next (s.skipIf (s.reg x != s.reg y))

/-- `Bnnn`: the sum is not reduced to 12 bits (R97). -/
def execJpV0 (nnn : Addr) (s : State) : Result := .next (s.jumpTo (zextAddr nnn + zextByte (s.reg 0#4)))

end Sys2Proof.Machine
end

