-- ==== Sys2Proof/Machine/Display.lean ====
section
/-! DEFINITION. The framebuffer controller, the collision detector, `00E0` and `Dxyn` (spec/44_display.md). -/

namespace Sys2Proof.Machine

/-- The framebuffer and the collision accumulator while a sprite is drawn (R133). -/
structure Canvas where
  disp : Screen
  hit : Bool
  deriving DecidableEq, Repr

/-- The flat index of a pixel (R130). -/
def pixelIndex (px py : Nat) : Nat := px + 64 * py

/-- The pixel at column `px` and row `py` (R19). -/
def State.pixel (s : State) (px py : Nat) : Bool := s.disp.getLsbD (pixelIndex px py)

/-- XOR-write of one lit sprite bit: off-screen bits are dropped (R134), a lit pixel sets the accumulator (R133). -/
def Canvas.plot (c : Canvas) (px py : Nat) : Canvas :=
  if px ≤ 63 ∧ py ≤ 31 then
    { disp := c.disp ^^^ (1#2048 <<< pixelIndex px py), hit := c.hit || c.disp.getLsbD (pixelIndex px py) }
  else c

/-- The columns of one sprite row: column `col` shows bit `7 - col` (R135). PRESUMED: decision D7; log entry 19. -/
def Canvas.drawCols (row : Byte) (x0 py : Nat) : Canvas → List Nat → Canvas
  | c, [] => c
  | c, col :: cols =>
    Canvas.drawCols row x0 py (if row.getLsbD (7 - col) then c.plot (x0 + col) py else c) cols

/-- The eight columns, left to right. -/
def spriteCols : List Nat := [0, 1, 2, 3, 4, 5, 6, 7]

/-- The rows of a sprite, top to bottom from row `py` (R132). Coordinates are unbounded (R7). UNVERIFIED: decision
D8; log entry 20. -/
def Canvas.drawRows (x0 : Nat) : Canvas → Nat → List Byte → Canvas
  | c, _, [] => c
  | c, py, row :: rows => Canvas.drawRows x0 (Canvas.drawCols row x0 py c spriteCols) (py + 1) rows

/-- `00E0`: all pixels unlit, `VF` unchanged (R131). -/
def execCls (s : State) : Result := .next { s with disp := 0#2048 }.advance

/-- The effect of a `Dxyn` whose bytes are in range: coordinates and bytes are read before `VF` is written (R132). -/
def State.drawSprite (s : State) (x y : Reg) (n : Nibble) : State :=
  let drawn := Canvas.drawRows (s.reg x).toNat { disp := s.disp, hit := false } (s.reg y).toNat
    (s.readBytes s.i.toNat n.toNat)
  ({ s with disp := drawn.disp }.setFlag (flagByte drawn.hit)).advance

/-- `Dxyn` (R132). -/
def execDrw (x y : Reg) (n : Nibble) (s : State) : Result :=
  .next (s.withRange n.toNat .memRead (.drw x y n) (s.drawSprite x y n))

end Sys2Proof.Machine
end

