-- ==== Sys2Proof/Machine/IndexMemory.lean ====
section
/-! DEFINITION. The address register and memory (spec/43_index_memory.md). No instruction here but `Annn`, `Fx1E` and
`Fx29` changes `I`. -/

namespace Sys2Proof.Machine

/-- `Annn` (R120). -/
def execLdI (nnn : Addr) (s : State) : Result := .next { s with i := zextAddr nnn }.advance

/-- `Fx1E`: modulo 65536, no flag (R121). UNVERIFIED: the wrap is decision D22; log entry 18. -/
def execAddI (x : Reg) (s : State) : Result := .next { s with i := s.i + zextByte (s.reg x) }.advance

/-- `Fx29` (R122). -/
def execLdF (x : Reg) (s : State) : Result := .next { s with i := s.glyphAddr (s.reg x) }.advance

/-- `Fx33` (R123). -/
def execLdB (x : Reg) (s : State) : Result :=
  .next (s.withRange 3 .memWrite (.ldB x) (s.storeBytes s.i.toNat (decimalDigits (s.reg x))).advance)

/-- `Fx55` (R124). -/
def execStoreRegs (x : Reg) (s : State) : Result :=
  .next (s.withRange (x.toNat + 1) .memWrite (.storeRegs x) (s.storeBytes s.i.toNat (s.regsUpTo x)).advance)

/-- `Fx65` (R125). -/
def execLoadRegs (x : Reg) (s : State) : Result :=
  .next (s.withRange (x.toNat + 1) .memRead (.loadRegs x)
    (s.setRegs 0 (s.readBytes s.i.toNat (x.toNat + 1))).advance)

end Sys2Proof.Machine
end

