-- ==== Sys2Proof/Machine/Keys.lean ====
section
/-! DEFINITION. Keys, timers and the random byte (spec/45_keys_timers_random.md). -/

namespace Sys2Proof.Machine

/-- `Cxnn`: a fresh byte of the outside, masked; the next `Cxnn` gets the next byte (R146). -/
def execRnd (x : Reg) (nn : Byte) (s : State) : Result :=
  .next { s.setReg x (Config.rand s.draws &&& nn) with draws := s.draws + 1 }.advance

/-- `Ex9E` (R140). -/
def execSkp (x : Reg) (s : State) : Result :=
  .next (s.withKey (s.reg x) (.skp x) (s.skipIf (s.keyHeld (s.reg x))))

/-- `ExA1` (R141). -/
def execSknp (x : Reg) (s : State) : Result :=
  .next (s.withKey (s.reg x) (.sknp x) (s.skipIf (!s.keyHeld (s.reg x))))

/-- `Fx0A`: while no key is held nothing changes, `pc` included; else the lowest held key (R142, R147). -/
def execLdVxK (x : Reg) (s : State) : Result :=
  .next (match s.lowestKey with
    | none => s
    | some k => (s.setReg x (BitVec.ofNat 8 k)).advance)

/-- `Fx07` (R143). -/
def execLdVxDt (x : Reg) (s : State) : Result := .next (s.setReg x s.dt).advance

/-- `Fx15` (R144). -/
def execLdDtVx (x : Reg) (s : State) : Result := .next { s with dt := s.reg x }.advance

/-- `Fx18` (R145). -/
def execLdStVx (x : Reg) (s : State) : Result := .next { s with st := s.reg x }.advance

end Sys2Proof.Machine
end

