-- ==== Sys2Proof/Machine/Engine.lean ====
section
/-! DEFINITION. The step of the engine and the host's events (spec/40_engine_cycle.md, spec/60_exceptions.md R164). -/

namespace Sys2Proof.Machine

/-- The EXEC event (R81): nothing in HALTED (R88); else fetch check, fetch, decode, execute, in that order. UNVERIFIED: an
unknown word halts by decision D2, HALTED ignores events by decision D19; log entries 12 and 21. -/
def State.execEvent (s : State) : Result :=
  if s.run = .halted then .next s
  else if s.fetchable then
    match decodeWord s.fetchWord with
    | some i => exec i s
    | none => .next (s.raise (.unknownOpcode s.fetchWord s.pc))
  else .next (s.raise (.outOfBounds .fetch s.pc none s.pc))

/-- What one event of the host does (R80). -/
def State.handle (s : State) : Event → Result
  | .exec => s.execEvent
  | .tick snapshot => .next (s.tick snapshot)
  | .reset p program snapshot => s.resetEvent p program snapshot

/-- The event the block takes next: the oldest one issued; where none is waiting, EXEC. DESIGN CHOICE; log
entry 2. -/
def State.nextEvent (s : State) : Event :=
  match s.pending with
  | [] => .exec
  | e :: _ => e

/-- The state with that event taken from the queue. -/
def State.takeEvent (s : State) : State := { s with pending := s.pending.tail }

/-- The events of one outer tick: `IPT` slots, then TICK with the next snapshot (R164). DESIGN CHOICE: `IPT`
is an argument; log entry 15. -/
def Event.batch (ipt : Nat) (snapshot : KeySet) : List Event := List.replicate ipt .exec ++ [.tick snapshot]

/-- The host's schedule over the ticks whose following snapshots are given (R164). -/
def Event.schedule (ipt : Nat) (snapshots : List KeySet) : List Event := snapshots.flatMap (Event.batch ipt)

/-- The state made ready so that the next step fetches and runs the word at `pc`: events before the next EXEC are
dropped, the block runs, and a `pc` that cannot be fetched from is put back to 0x200. A state that is ready stays as it
is. DESIGN CHOICE; log entry 16. -/
def State.readyToFetch (s : State) : State :=
  { s with
    pending := s.pending.dropWhile (fun e => decide (e ≠ .exec))
    run := .running
    fault := if s.run = .halted then none else s.fault
    pc := if s.fetchable then s.pc else Config.progBase }

/-- The state with the two bytes of a word stored at `pc`, high byte first (R45). -/
def State.placeWord (s : State) (nbits w : Nat) : State :=
  s.readyToFetch.storeBytes s.readyToFetch.pc.toNat (tableBytes nbits w)

end Sys2Proof.Machine
end

