-- ==== Sys2Proof/Machine/Ports.lean ====
section
/-! DEFINITION. What the host sees of the block: the outputs of spec/60_exceptions.md R153, R163, R167, R169. They are
functions of the state; none is state. DEDUCED; log entry 22. -/

namespace Sys2Proof.Machine

/-- `sound_active`: `ST != 0` (R163). UNVERIFIED: decision D26; log entry 18. -/
def State.soundActive (s : State) : Bool := s.st != 0#8

/-- `halted`: `run = HALTED` (R169). -/
def State.halted (s : State) : Bool := decide (s.run = .halted)

/-- `disp_out`: pixel `(x, y)` at bit `x + 64*y` (R169). -/
def State.dispOut (s : State) : Screen := s.disp

/-- What the host reads in the middle of a TICK, after the timers and before the new snapshot (R136, R161). -/
structure HandOff where
  disp : Screen
  soundActive : Bool
  deriving DecidableEq, Repr

/-- The display and the sound signal the host samples at a TICK that begins in `s`; in HALTED both keep their last value
(R88, R136, R163). -/
def State.handOff (s : State) : HandOff :=
  { disp := s.midTick.dispOut, soundActive := s.midTick.soundActive }

/-- The number of a cause (R153). -/
def Cause.code : Cause → BitVec 3
  | .fetch => 0#3
  | .memRead => 1#3
  | .memWrite => 2#3
  | .stackOverflow => 3#3
  | .stackUnderflow => 4#3
  | .keyIndex => 5#3

/-- `fault_code`: 0 no fault, 2 `OutOfBounds`, 3 `UnknownOpcode`; 1, `LoadError`, is never seen in a block that runs
(R153). -/
def State.faultCode (s : State) : BitVec 2 :=
  match s.fault with
  | none => 0#2
  | some (.outOfBounds _ _ _ _) => 2#2
  | some (.unknownOpcode _ _) => 3#2

/-- `fault_cause`, where it is valid: only with code 2 (R153). -/
def State.faultCause (s : State) : Option (BitVec 3) :=
  match s.fault with
  | some (.outOfBounds c _ _ _) => some c.code
  | _ => none

/-- `fault_addr`, where it is used: only with code 2 (R151, R152). -/
def State.faultAddr (s : State) : Option Word :=
  match s.fault with
  | some (.outOfBounds _ a _ _) => some a
  | _ => none

/-- `fault_iw` with its valid bit: none is invalid, as for FETCH (R153). -/
def State.faultIw (s : State) : Option Word :=
  match s.fault with
  | some (.outOfBounds _ _ iw _) => iw
  | some (.unknownOpcode iw _) => some iw
  | none => none

/-- `fault_pc`: the `pc` of the faulting step (R153). -/
def State.faultPc (s : State) : Option Word :=
  match s.fault with
  | some (.outOfBounds _ _ _ pc) => some pc
  | some (.unknownOpcode _ pc) => some pc
  | none => none

end Sys2Proof.Machine
end

