-- ==== Sys2Proof/Safety.lean ====
section
/-! DEFINITION. The terms claims are stated in: frames, the machine's invariant, what a finished run is. -/

namespace Sys2Proof.Machine

/-- The pieces of state beside the registers and `pc` that some instruction writes (R26). -/
inductive Part where
  | i
  | sp
  | stack
  | dt
  | st
  | mem
  | disp
  | draws
  deriving DecidableEq, Repr

/-- `t` differs from `s` at most in `pc`, in the registers of `regs` and in the pieces of `parts`. Memory is compared
byte by byte, over every address. -/
def State.Frame (regs : Reg → Prop) (parts : List Part) (s t : State) : Prop :=
  (∀ r, ¬ regs r → t.reg r = s.reg r) ∧
  (.i ∉ parts → t.i = s.i) ∧
  (.sp ∉ parts → t.sp = s.sp) ∧
  (.stack ∉ parts → t.stack = s.stack) ∧
  (.dt ∉ parts → t.dt = s.dt) ∧
  (.st ∉ parts → t.st = s.st) ∧
  (.mem ∉ parts → ∀ a, t.readByte a = s.readByte a) ∧
  (.disp ∉ parts → t.disp = s.disp) ∧
  (.draws ∉ parts → t.draws = s.draws) ∧
  t.keys = s.keys ∧ t.run = s.run ∧ t.fault = s.fault ∧ t.platform = s.platform ∧ t.pending = s.pending

/-- No register. -/
def noReg : Reg → Prop := fun _ => False

/-- One register. -/
def onlyReg (x : Reg) : Reg → Prop := fun r => r = x

/-- A destination and the flag register. -/
def regAndFlag (x : Reg) : Reg → Prop := fun r => r = x ∨ r = State.vf

/-- The halted state a fatal error leaves: `run` and `fault` changed, nothing else (R87, R156). -/
def State.haltedWith (s : State) (r : FaultRecord) : State := { s with run := .halted, fault := some r }

/-- Every live stack entry is even and in 0x202..0x1000: CALL stored it from a fetched `pc` (R90). -/
def State.StackSound (s : State) : Prop :=
  ∀ j, (h : j < 16) → j < s.sp.toNat →
    s.stack[j].toNat % 2 = 0 ∧ 0x202 ≤ s.stack[j].toNat ∧ s.stack[j].toNat ≤ 0x1000

/-- What holds of the machine in every run: the stack pointer is legal (R14), live entries are return addresses (R90),
`pc` is at most 0x10FE (R13), memory is canonical, the font is in the reserved range (R182), and a fault is recorded
exactly when the block is halted (R21). -/
def State.Inv (s : State) : Prop :=
  s.sp.toNat ≤ 16 ∧ s.StackSound ∧ s.pc.toNat ≤ 0x10FE ∧ Memory.wf s.platform s.mem = true ∧
  s.platform.wellFormed = true ∧ (s.run = .halted ↔ s.fault.isSome = true)

/-- A successful state: the block runs. A halted state is never one (R88, R156). -/
def State.safe (s : State) : Bool := decide (s.run = .running)

/-- The end of a run the spec recommends: the block runs and the word at `pc` is a jump to `pc` itself (R174). -/
def State.finished (s : State) : Bool :=
  s.safe && s.fetchable && decide (decodeWord s.fetchWord = some (.jp (s.pc.setWidth 12)))

/-- Whether the `n`-row sprite of `Dxyn` has a 1 bit at the pixel `(px, py)`: row `py - Vy`, column `px - Vx`, bit 7 the
leftmost (R132, R135). The sprite's origin is not reduced (R134). -/
def State.spriteBit (s : State) (x y : Reg) (n : Nibble) (px py : Nat) : Bool :=
  decide ((s.reg x).toNat ≤ px) && decide (px < (s.reg x).toNat + 8) &&
  decide ((s.reg y).toNat ≤ py) && decide (py < (s.reg y).toNat + n.toNat) &&
  (s.readByte (s.i.toNat + (py - (s.reg y).toNat))).getLsbD (7 - (px - (s.reg x).toNat))

/-- How an instruction moves `pc` (R85). -/
inductive PcClass where
  | sequential
  | skip
  | wait
  | absolute (target : Addr)
  | indexed (target : Addr)
  | ret
  deriving DecidableEq, Repr

/-- The table of R85. -/
def pcClass : Instr → PcClass
  | .seImm _ _ | .sneImm _ _ | .seReg _ _ | .sneReg _ _ | .skp _ | .sknp _ => .skip
  | .ldVxK _ => .wait
  | .jp nnn | .call nnn => .absolute nnn
  | .jpV0 nnn => .indexed nnn
  | .ret => .ret
  | .cls | .ldImm _ _ | .addImm _ _ | .ldReg _ _ | .orReg _ _ | .andReg _ _ | .xorReg _ _ | .addReg _ _ | .sub _ _
  | .shr _ _ | .subn _ _ | .shl _ _ | .ldI _ | .rnd _ _ | .drw _ _ _ | .ldVxDt _ | .ldDtVx _ | .ldStVx _ | .addI _
  | .ldF _ | .ldB _ | .storeRegs _ | .loadRegs _ => .sequential

/-- The registers an instruction may write, columns `Vx` and `VF` of the access matrix (R26). -/
def mayWriteReg : Instr → Reg → Prop
  | .ldImm x _ | .addImm x _ | .ldReg x _ | .orReg x _ | .andReg x _ | .xorReg x _ | .rnd x _ | .ldVxDt x
  | .ldVxK x => onlyReg x
  | .addReg x _ | .sub x _ | .shr x _ | .subn x _ | .shl x _ => regAndFlag x
  | .drw _ _ _ => onlyReg State.vf
  | .loadRegs x => fun r => r ≤ x
  | .cls | .ret | .jp _ | .call _ | .seImm _ _ | .sneImm _ _ | .seReg _ _ | .sneReg _ _ | .ldI _ | .jpV0 _ | .skp _
  | .sknp _ | .ldDtVx _ | .ldStVx _ | .addI _ | .ldF _ | .ldB _ | .storeRegs _ => noReg

/-- The other pieces of state an instruction may write, the remaining columns of the access matrix (R26). -/
def mayWrite : Instr → List Part
  | .cls | .drw _ _ _ => [.disp]
  | .ret => [.sp]
  | .call _ => [.sp, .stack]
  | .ldI _ | .addI _ | .ldF _ => [.i]
  | .rnd _ _ => [.draws]
  | .ldDtVx _ => [.dt]
  | .ldStVx _ => [.st]
  | .ldB _ | .storeRegs _ => [.mem]
  | .jp _ | .jpV0 _ | .seImm _ _ | .sneImm _ _ | .seReg _ _ | .sneReg _ _ | .ldImm _ _ | .addImm _ _ | .ldReg _ _
  | .orReg _ _ | .andReg _ _ | .xorReg _ _ | .addReg _ _ | .sub _ _ | .shr _ _ | .subn _ _ | .shl _ _ | .skp _
  | .sknp _ | .ldVxDt _ | .ldVxK _ | .loadRegs _ => []

/-- How many bytes from `I` on an instruction stores to, column `mem` of the access matrix (R26). -/
def storeCount : Instr → Nat
  | .ldB _ => 3
  | .storeRegs x => x.toNat + 1
  | .cls | .ret | .jp _ | .call _ | .seImm _ _ | .sneImm _ _ | .seReg _ _ | .ldImm _ _ | .addImm _ _ | .ldReg _ _
  | .orReg _ _ | .andReg _ _ | .xorReg _ _ | .addReg _ _ | .sub _ _ | .shr _ _ | .subn _ _ | .shl _ _ | .sneReg _ _
  | .ldI _ | .jpV0 _ | .rnd _ _ | .drw _ _ _ | .skp _ | .sknp _ | .ldVxDt _ | .ldVxK _ | .ldDtVx _ | .ldStVx _
  | .addI _ | .ldF _ | .loadRegs _ => 0

/-- The stack entry an instruction stores to, column `stack` of the access matrix (R26): `2nnn` stores at `SP` (R92), and
`00EE` only reads. -/
def storesEntry (s : State) : Instr → Option Nat
  | .call _ => some s.sp.toNat
  | .cls | .ret | .jp _ | .seImm _ _ | .sneImm _ _ | .seReg _ _ | .ldImm _ _ | .addImm _ _ | .ldReg _ _ | .orReg _ _
  | .andReg _ _ | .xorReg _ _ | .addReg _ _ | .sub _ _ | .shr _ _ | .subn _ _ | .shl _ _ | .sneReg _ _ | .ldI _
  | .jpV0 _ | .rnd _ _ | .drw _ _ _ | .skp _ | .sknp _ | .ldVxDt _ | .ldVxK _ | .ldDtVx _ | .ldStVx _ | .addI _
  | .ldF _ | .ldB _ | .storeRegs _ | .loadRegs _ => none

/-- The instructions that can raise each cause of `OutOfBounds` (R151). FETCH is raised before any instruction. -/
def raisedBy : Cause → Instr → Bool
  | .memRead, .loadRegs _ | .memRead, .drw _ _ _ => true
  | .memWrite, .ldB _ | .memWrite, .storeRegs _ => true
  | .stackOverflow, .call _ => true
  | .stackUnderflow, .ret => true
  | .keyIndex, .skp _ | .keyIndex, .sknp _ => true
  | _, _ => false

/-- `n` EXEC events in a row (R164), stopping where one stops. -/
def State.execSlots : Nat → State → Result
  | 0, s => .next s
  | n + 1, s =>
    match s.execEvent with
    | .next t => State.execSlots n t
    | .fault f => .fault f
    | .refused r => .refused r

/-- A list of TICK events in a row. -/
def State.ticks (s : State) : List KeySet → State
  | [] => s
  | k :: ks => State.ticks (s.tick k) ks

end Sys2Proof.Machine
end

