-- ==== Sys2Proof/Certificates/Slice0/Obligations.lean ====
section
/-! DEFINITION. The statements for the provers. Each docstring names the rules of spec/ it formalises; where a clause
rests on a decision of the spec (D<n>) or on a choice of the model it says so and names the log entry. -/

open Sys2Proof Sys2Proof.Machine

/-! ## Encoding -/

/-- Words written out from the patterns of R65, one or more for each primary opcode, decode to the instruction they stand
for (spec/95_test_vectors.md section 2.1 gives DE1 to DE10). -/
def Obligations.DecoderReadsTheSpecsWords : Prop :=
  decodeWord 0x00E0#16 = some .cls ∧ decodeWord 0x00EE#16 = some .ret ∧
  decodeWord 0x1234#16 = some (.jp 0x234#12) ∧ decodeWord 0x2300#16 = some (.call 0x300#12) ∧
  decodeWord 0x3412#16 = some (.seImm 4#4 0x12#8) ∧ decodeWord 0x4001#16 = some (.sneImm 0#4 1#8) ∧
  decodeWord 0x5120#16 = some (.seReg 1#4 2#4) ∧ decodeWord 0x6A42#16 = some (.ldImm 10#4 0x42#8) ∧
  decodeWord 0x7102#16 = some (.addImm 1#4 2#8) ∧ decodeWord 0x8ABE#16 = some (.shl 10#4 11#4) ∧
  decodeWord 0x9120#16 = some (.sneReg 1#4 2#4) ∧ decodeWord 0xA2F0#16 = some (.ldI 0x2F0#12) ∧
  decodeWord 0xB300#16 = some (.jpV0 0x300#12) ∧ decodeWord 0xC30F#16 = some (.rnd 3#4 0x0F#8) ∧
  decodeWord 0xD015#16 = some (.drw 0#4 1#4 5#4) ∧ decodeWord 0xE19E#16 = some (.skp 1#4) ∧
  decodeWord 0xFF65#16 = some (.loadRegs 15#4) ∧ decodeWord 0x0EE0#16 = none ∧ decodeWord 0x5121#16 = none

/-- Every instruction, with every operand at every value its field admits, is read back from its word (R61, R65). -/
def Obligations.DecodeOfEncodeIsTheInstruction : Prop :=
  ∀ i : Instr, i.WellFormed →
    decodeWord (encode i) = some i ∧ ∀ rest, decode (encodeBytes i ++ rest) = .ok i rest

/-- A word that decodes is the word of what it decodes to: no bit of it is lost (R61, R62). So the word a fault records
is the fetched one (log entry 9). -/
def Obligations.EncodeOfDecodeIsTheWord : Prop :=
  ∀ (w : Word) (i : Instr), decodeWord w = some i → encode i = w

/-- A word is an instance of a row exactly when `(iw & mask) = match`, and then it decodes to an instruction of that row
and of no other: the rows are disjoint (R62, R65, R84). -/
def Obligations.WordDecodesByItsRowAlone : Prop :=
  ∀ (w : Word) (j : Instr),
    (w &&& rowMask j = rowMatch j ↔
      ∃ i, decodeWord w = some i ∧ rowMask i = rowMask j ∧ rowMatch i = rowMatch j) ∧
    (∀ k, w &&& rowMask j = rowMatch j → w &&& rowMask k = rowMatch k → rowMatch j = rowMatch k)

/-- The words that match no pattern are exactly those of the table of R66. -/
def Obligations.UnknownWordsAreTheTablesWords : Prop :=
  ∀ w : Word, decodeWord w = none ↔
    (opField w = 0x0#4 ∧ w ≠ 0x00E0#16 ∧ w ≠ 0x00EE#16) ∨
    (opField w = 0x5#4 ∧ nField w ≠ 0#4) ∨
    (opField w = 0x8#4 ∧ nField w ∈ [0x8#4, 0x9#4, 0xA#4, 0xB#4, 0xC#4, 0xD#4, 0xF#4]) ∨
    (opField w = 0x9#4 ∧ nField w ≠ 0#4) ∨
    (opField w = 0xE#4 ∧ nnField w ∉ [0x9E#8, 0xA1#8]) ∨
    (opField w = 0xF#4 ∧
      nnField w ∉ [0x07#8, 0x0A#8, 0x15#8, 0x18#8, 0x1E#8, 0x29#8, 0x33#8, 0x55#8, 0x65#8])

/-! ## The step -/

/-- R45: the fetched word has the byte at `pc` as its high byte and the byte at `pc + 1` as its low byte, and a word
stored there, high byte at the lower address, is what the fetch forms. -/
def Obligations.FetchIsBigEndian : Prop :=
  ∀ (s : State) (w : Word),
    s.fetchWord.toNat = (s.readByte s.pc.toNat).toNat * 256 + (s.readByte (s.pc.toNat + 1)).toNat ∧
    s.fetchWord.extractLsb' 8 8 = s.readByte s.pc.toNat ∧
    s.fetchWord.extractLsb' 0 8 = s.readByte (s.pc.toNat + 1) ∧
    (s.storeBytes s.pc.toNat [w.extractLsb' 8 8, w.extractLsb' 0 8]).fetchWord = w ∧
    (s.storeBytes s.pc.toNat [0x8A#8, 0xB4#8]).fetchWord = 0x8AB4#16

/-- R81 steps 3 and 4: when the block runs, `pc` passes the fetch check and the two bytes at `pc` decode to `i`, a step
whose event is EXEC is `exec i` of the state without that event; with nothing queued it is `exec i` of the state itself
(log entry 2). -/
def Obligations.StepRunsTheDecodedInstruction : Prop :=
  ∀ (s : State) (i : Instr), s.run = .running → s.pc.toNat % 2 = 0 → 0x200 ≤ s.pc.toNat → s.pc.toNat ≤ 0xFFE →
    decode [s.readByte s.pc.toNat, s.readByte (s.pc.toNat + 1)] = .ok i [] → i.WellFormed →
    (s.nextEvent = .exec → step s = exec i { s with pending := s.pending.tail }) ∧
    (s.pending = [] → step s = exec i s)

/-- A word placed by `withFetchWord` is the one the next step runs, from every state (the host's placing of a program,
log entry 16). -/
def Obligations.PlacedWordRunsNext : Prop :=
  ∀ (s : State) (i : Instr),
    step (s.withFetchWord 16 (encode i).toNat) =
      exec i { s.withFetchWord 16 (encode i).toNat with
        pending := (s.withFetchWord 16 (encode i).toNat).pending.tail }

/-- An EXEC whose `pc` is odd, below 0x200 or above 0xFFE halts the block with `OutOfBounds(FETCH)`, no word recorded, and
changes nothing else (R81 step 1, R82). The check is the spec's decision D3 (log entry 11). -/
def Obligations.BadFetchAddressHalts : Prop :=
  ∀ s : State, s.nextEvent = .exec → s.run = .running →
    (s.pc.toNat % 2 = 1 ∨ s.pc.toNat < 0x200 ∨ 0xFFE < s.pc.toNat) →
    step s = .next ({ s with pending := s.pending.tail }.haltedWith (.outOfBounds .fetch s.pc none s.pc))

/-- An EXEC that fetches a word of no row halts the block with `UnknownOpcode`, the word and `pc` recorded, and changes
nothing else (R66, R152). Halting is the spec's decision D2 (log entry 12). -/
def Obligations.UnknownWordHalts : Prop :=
  ∀ s : State, s.nextEvent = .exec → s.run = .running → s.pc.toNat % 2 = 0 → 0x200 ≤ s.pc.toNat →
    s.pc.toNat ≤ 0xFFE → decodeWord s.fetchWord = none →
    step s = .next ({ s with pending := s.pending.tail }.haltedWith (.unknownOpcode s.fetchWord s.pc))

/-- R88: in HALTED an EXEC and a TICK change nothing but that the event is used up; however many steps are taken, as long
as no RESET is queued, the block stays as it was. RESET leaves the halted state: with an accepted program and platform the
block then runs. -/
def Obligations.HaltedBlockStaysUntilReset : Prop :=
  (∀ (n : Nat) (s : State), s.run = .halted → (∀ p prog k, Event.reset p prog k ∉ s.pending) →
    Host.Core.run Sys2Proof.core n s = .next { s with pending := s.pending.drop n }) ∧
  (∀ (s : State) (p : Platform) (prog : List Byte) (k : KeySet), s.run = .halted →
    s.nextEvent = .reset p (some prog) k → prog.length ≤ 3584 → p.fontBase.toNat + 79 ≤ 0x1FF →
    ∃ t, step s = .next t ∧ t.run = .running ∧ t.fault = none)

/-! ## Timers and the host's schedule -/

/-- A TICK of a running block decrements each timer that is above 0 and leaves one at 0, latches the new snapshot, and
changes no other state of the block (R161). What the host reads in it is the display as it is and the sound signal after
the decrement (R163: the spec's decision D26, log entry 18; that the hand-off is a function of the state is log entry 22).
In HALTED a TICK does nothing, and display and sound signal keep their last values (R88). That the event leaves the queue is
the model's choice (log entry 2). -/
def Obligations.TickEffect : Prop :=
  ∀ (s : State) (k : KeySet), s.nextEvent = .tick k →
    (s.run = .running → ∃ t, step s = .next t ∧
      t.dt.toNat = s.dt.toNat - 1 ∧ t.st.toNat = s.st.toNat - 1 ∧ t.keys = k ∧
      t = { s with dt := t.dt, st := t.st, keys := k, pending := s.pending.tail } ∧
      s.handOff.disp = s.disp ∧ (s.handOff.soundActive = true ↔ 0 < t.st.toNat)) ∧
    (s.run = .halted → step s = .next { s with pending := s.pending.tail } ∧
      s.handOff.disp = s.disp ∧ (s.handOff.soundActive = true ↔ 0 < s.st.toNat))

/-- After `Fx18` with the value `v` in a running block, the sound signal is active for `v` TICKs, and a host that samples it
only at the TICKs sees it active at the first `v - 1` of them, so never for `v = 1` (R163: the spec's decision D26, log entry
18; the hand-off is log entry 22). -/
def Obligations.SoundSignalAtTicks : Prop :=
  ∀ (s : State) (x : Reg), s.run = .running →
    ∃ t, exec (.ldStVx x) s = .next t ∧ ∀ ks : List KeySet,
      ((t.ticks ks).soundActive = true ↔ ks.length < (s.reg x).toNat) ∧
      ((t.ticks ks).handOff.soundActive = true ↔ ks.length + 1 < (s.reg x).toNat)

/-- After any number of TICKs of a running block each timer has gone down by that number and never below 0, and the
snapshot is the last one given (spec/70_reset_and_hazards.md R190 item 3, R161, R16, R17). -/
def Obligations.TimersReachZeroAndStay : Prop :=
  ∀ (s : State) (ks : List KeySet), s.run = .running →
    (s.ticks ks).dt.toNat = s.dt.toNat - ks.length ∧ (s.ticks ks).st.toNat = s.st.toNat - ks.length ∧
    (s.ticks ks).keys = ks.getLast?.getD s.keys ∧ (s.ticks ks).disp = s.disp ∧ (s.ticks ks).pc = s.pc

/-- One outer tick of the schedule of R164: with `IPT` EXEC events and a TICK queued, the machine runs `IPT` slots and then
the TICK, for every `IPT >= 1` (the queue is the model's form of the host, log entries 2 and 15). -/
def Obligations.OuterTickRunsSlotsThenTick : Prop :=
  ∀ (ipt : Nat) (s t : State) (k : KeySet) (later : List Event), 1 ≤ ipt →
    State.execSlots ipt { s with pending := later } = .next t →
    Host.Core.run Sys2Proof.core (ipt + 1) { s with pending := Event.batch ipt k ++ later } = .next (t.tick k)

/-! ## Reset -/

/-- A RESET with an accepted program: registers, stack, timers, display, run state as R180 lists them (stack, display and
snapshot by its decisions D16 and D17), the program's bytes at 0x200, the font at FONT_BASE, 0 elsewhere (R182); nothing
of the run before survives (R191). That the queue and the random index go on is the model's choice (log entries 2, 3). -/
def Obligations.ResetLoadsTheImage : Prop :=
  ∀ (s : State) (p : Platform) (prog : List Byte) (k : KeySet),
    s.nextEvent = .reset p (some prog) k → prog.length ≤ 3584 → p.fontBase.toNat + 79 ≤ 0x1FF →
    ∃ t, step s = .next t ∧
      (∀ r, t.reg r = 0#8) ∧ t.i = 0#16 ∧ t.sp = 0#8 ∧ t.dt = 0#8 ∧ t.st = 0#8 ∧ t.pc = 0x200#16 ∧
      (∀ j, (h : j < 16) → t.stack[j] = 0#16) ∧ t.disp = 0#2048 ∧ t.keys = k ∧ t.run = .running ∧ t.fault = none ∧
      (∀ j, (h : j < prog.length) → t.readByte (0x200 + j) = prog[j]) ∧
      (∀ j, (h : j < 80) → t.readByte (p.fontBase.toNat + j) = p.fontData[j]) ∧
      (∀ a, (a < p.fontBase.toNat ∨ p.fontBase.toNat + 80 ≤ a) → (a < 0x200 ∨ 0x200 + prog.length ≤ a) →
        t.readByte a = 0#8) ∧
      t.platform = p ∧ t.draws = s.draws ∧ t.pending = s.pending.tail

/-- A RESET whose program is missing or longer than 3584 bytes does not happen: there is no next state (R183, decision D27,
log entry 8). -/
def Obligations.OversizedProgramIsNotLoaded : Prop :=
  ∀ (s : State) (p : Platform) (prog : List Byte) (k : KeySet),
    (s.nextEvent = .reset p (some prog) k → 3584 < prog.length →
      step s = .fault (.loadError (some prog.length))) ∧
    (s.nextEvent = .reset p none k → step s = .fault (.loadError none))

/-- The values right after reset: registers 0, `pc` 0x200, the block runs (R25, R181); stack and display 0 by the spec's
decision D17, no program listed. -/
def Obligations.ResetStateValues : Prop :=
  (∀ r, State.reset.reg r = 0#8) ∧ State.reset.i = 0#16 ∧ State.reset.pc = 0x200#16 ∧ State.reset.sp = 0#8 ∧
  State.reset.dt = 0#8 ∧ State.reset.st = 0#8 ∧ (∀ j, (h : j < 16) → State.reset.stack[j] = 0#16) ∧
  State.reset.disp = 0#2048 ∧ State.reset.run = .running ∧ State.reset.fault = none ∧
  State.reset.soundActive = false ∧
  (∀ a, a < 0x50 ∨ 0xA0 ≤ a → State.reset.readByte a = 0#8) ∧
  (∀ j, (h : j < 80) → State.reset.readByte (0x50 + j) = Config.defaultPlatform.fontData[j])

/-! ## The invariant -/

/-- The invariant holds right after reset. -/
def Obligations.ResetMeetsTheInvariant : Prop := State.reset.Inv

/-- Every step, whatever its event, keeps the invariant: `SP` at most 16 (R14), live return addresses even and in
0x202..0x1000 (R90), `pc` at most 0x10FE (R13), memory in canonical form, the font in the reserved range (R182), a fault
recorded exactly when the block is halted (R21). -/
def Obligations.StepKeepsTheInvariant : Prop :=
  ∀ s t : State, s.Inv → step s = .next t → t.Inv

/-- From a state of the invariant a step never refuses, and stops only at a RESET whose program or platform is not
accepted: no instruction and no data ends a run of the model. The stops are those of log entries 7 (`SP` above 16, which the
invariant excludes) and 8 (a RESET without a next state). -/
def Obligations.OnlyABadResetStopsTheModel : Prop :=
  ∀ s : State, s.Inv →
    (∃ t, step s = .next t) ∨
    (∃ p prog k f, s.nextEvent = .reset p prog k ∧ step s = .fault f ∧
      (prog = none ∨ 0x1FF < p.fontBase.toNat + 79 ∨ ∃ bytes, prog = some bytes ∧ 3584 < bytes.length))

/-- Memory is data in canonical form: two memories in that form that read alike at every address are equal (the model's
form of memory, log entry 6). -/
def Obligations.MemoriesThatReadAlikeAreEqual : Prop :=
  ∀ (p : Platform) (m m' : Memory), Memory.wf p m = true → Memory.wf p m' = true →
    (∀ a, Memory.read p m a = Memory.read p m' a) → m = m'

/-! ## Whole-machine rules -/

/-- No instruction writes anything the access matrix of R26 does not give it: registers, `I`, `SP`, stack, timers, memory,
display; none writes `keys`, and one that completes leaves `run` and `fault` (R10 to R21, R84). Of memory only `Fx33` and
`Fx55` write, the 3 and `x + 1` bytes from `I` on; of the stack only `2nnn` writes, the entry at `SP`. -/
def Obligations.NoInstructionWritesBeyondItsRow : Prop :=
  ∀ (i : Instr) (s t : State), exec i s = .next t → t.run = s.run → s.run = .running →
    State.Frame (mayWriteReg i) (mayWrite i) s t ∧
    (∀ a, (a < s.i.toNat ∨ s.i.toNat + storeCount i ≤ a) → t.readByte a = s.readByte a) ∧
    (∀ j, storesEntry s i ≠ some j → t.stack[j]? = s.stack[j]?)

/-- An instruction that halts the block changes `run` and `fault` and nothing else; the record holds the instruction's word
and its `pc`, and its cause is one that R151 gives that instruction (R87, R151, R156). Precise faults are the spec's
decision D11 (log entry 13), the key index its decision D12 (log entry 14). -/
def Obligations.FatalErrorsArePrecise : Prop :=
  ∀ (i : Instr) (s t : State), s.run = .running → exec i s = .next t → t.run = .halted →
    ∃ cause addr, raisedBy cause i = true ∧
      t = s.haltedWith (.outOfBounds cause addr (some (encode i)) s.pc)

/-- The next `pc` of an instruction that completes is the one its class has in R85. -/
def Obligations.NextPcByClass : Prop :=
  ∀ (i : Instr) (s t : State), s.run = .running → exec i s = .next t → t.run = .running →
    match pcClass i with
    | .sequential => t.pc = s.pc + 2#16
    | .skip => t.pc = s.pc + 4#16 ∨ t.pc = s.pc + 2#16
    | .wait => (t.pc = s.pc ∧ s.keys = 0#16) ∨ (t.pc = s.pc + 2#16 ∧ s.keys ≠ 0#16)
    | .absolute nnn => t.pc.toNat = nnn.toNat
    | .indexed nnn => t.pc.toNat = nnn.toNat + (s.reg 0#4).toNat
    | .ret => s.stack[s.sp.toNat - 1]? = some t.pc

/-! ## Control transfer -/

/-- `00EE` with 1 to 16 live entries: `SP` goes down by one, `pc` is the entry just popped, the array is unchanged (R90;
what the entry holds is decision D4). -/
def Obligations.ReturnPopsTheLastEntry : Prop :=
  ∀ s : State, 1 ≤ s.sp.toNat → s.sp.toNat ≤ 16 →
    ∃ t, exec .ret s = .next t ∧ t.sp.toNat = s.sp.toNat - 1 ∧ t.stack = s.stack ∧
      s.stack[s.sp.toNat - 1]? = some t.pc ∧ State.Frame noReg [.sp] s t

/-- `00EE` with no live entry halts with STACK_UNDERFLOW, address 0 (R90, R151). -/
def Obligations.ReturnOnEmptyStackHalts : Prop :=
  ∀ s : State, s.sp = 0#8 →
    exec .ret s = .next (s.haltedWith (.outOfBounds .stackUnderflow 0#16 (some 0x00EE#16) s.pc))

/-- `2nnn` with at most 15 live entries: the address after the call is pushed at `stack[SP]`, `SP` goes up by one, `pc` is
`nnn` (R92). That `pc + 2` is pushed is the spec's decision D4 (log entry 17). -/
def Obligations.CallPushesTheNextAddress : Prop :=
  ∀ (s : State) (nnn : Addr), s.sp.toNat ≤ 15 →
    ∃ t, exec (.call nnn) s = .next t ∧ t.stack[s.sp.toNat]? = some (s.pc + 2#16) ∧
      (∀ j, j ≠ s.sp.toNat → t.stack[j]? = s.stack[j]?) ∧ t.sp.toNat = s.sp.toNat + 1 ∧
      t.pc.toNat = nnn.toNat ∧ State.Frame noReg [.sp, .stack] s t

/-- `2nnn` with 16 live entries halts with STACK_OVERFLOW, address 16 (R92, R151, conflict C13). -/
def Obligations.CallOnFullStackHalts : Prop :=
  ∀ (s : State) (nnn : Addr), s.sp = 16#8 →
    exec (.call nnn) s = .next (s.haltedWith (.outOfBounds .stackOverflow 16#16 (some (0x2#4 ++ nnn)) s.pc))

/-- A call followed at once by a return goes on after the call, with `SP` as it was and every entry but that at `SP`
untouched (R98, R92, R90; spec/95_test_vectors.md S8; decision D4, log entry 17). -/
def Obligations.CallThenReturnGoesOnAfterTheCall : Prop :=
  ∀ (s : State) (nnn : Addr), s.sp.toNat ≤ 15 →
    ∃ t u, exec (.call nnn) s = .next t ∧ exec .ret t = .next u ∧ u.pc = s.pc + 2#16 ∧ u.sp = s.sp ∧
      (∀ j, j ≠ s.sp.toNat → u.stack[j]? = s.stack[j]?) ∧ State.Frame noReg [.stack] s u

/-- `1nnn`: `pc` becomes `nnn`, nothing else changes; with `nnn` the instruction's own address the state does not change at
all, the usual end of a program (R91, R174). A target that is odd or below 0x200 is loaded all the same, and the next EXEC
halts with FETCH (decision D3, log entry 11). -/
def Obligations.JumpResult : Prop :=
  ∀ (s : State) (nnn : Addr),
    ∃ t, exec (.jp nnn) s = .next t ∧ t.pc.toNat = nnn.toNat ∧ State.Frame noReg [] s t ∧
      (s.pc.toNat = nnn.toNat → t = s) ∧
      (s.run = .running → (nnn.toNat % 2 = 1 ∨ nnn.toNat < 0x200) →
        t.execEvent = .next (t.haltedWith (.outOfBounds .fetch t.pc none t.pc)))

/-- `Bnnn`: `pc` becomes the unreduced sum of `nnn` and `V0`, at most 0x10FE (R97). -/
def Obligations.IndexedJumpResult : Prop :=
  ∀ (s : State) (nnn : Addr),
    ∃ t, exec (.jpV0 nnn) s = .next t ∧ t.pc.toNat = nnn.toNat + (s.reg 0#4).toNat ∧ t.pc.toNat ≤ 0x10FE ∧
      State.Frame noReg [] s t

/-- `3xnn` and `4xnn`: one skips when `Vx = nn`, the other when not; nothing but `pc` changes (R93, R94). -/
def Obligations.SkipOnImmediateResult : Prop :=
  ∀ (s : State) (x : Reg) (nn : Byte),
    (∃ t, exec (.seImm x nn) s = .next t ∧ State.Frame noReg [] s t ∧
      ((s.reg x).toNat = nn.toNat → t.pc = s.pc + 4#16) ∧ ((s.reg x).toNat ≠ nn.toNat → t.pc = s.pc + 2#16)) ∧
    (∃ t, exec (.sneImm x nn) s = .next t ∧ State.Frame noReg [] s t ∧
      ((s.reg x).toNat ≠ nn.toNat → t.pc = s.pc + 4#16) ∧ ((s.reg x).toNat = nn.toNat → t.pc = s.pc + 2#16))

/-- R95, R96: `5xy0` and `9xy0`: one skips when `Vx = Vy`, the other when not; with `x = y` the first always and the second
never; nothing but `pc` changes. Their words are those of R65 rows 7 and 19, and a word that differs from them in the low
nibble is an unknown word. -/
def Obligations.SkipOnRegisterResult : Prop :=
  ∀ (s : State) (x y : Reg),
    decodeWord (0x5#4 ++ x ++ y ++ 0x0#4) = some (.seReg x y) ∧
    decodeWord (0x9#4 ++ x ++ y ++ 0x0#4) = some (.sneReg x y) ∧
    (∀ n : Nibble, n ≠ 0#4 →
      decode [0x5#4 ++ x, y ++ n] = .rejected (.unknownOpcode (0x5#4 ++ x ++ y ++ n)) ∧
      decode [0x9#4 ++ x, y ++ n] = .rejected (.unknownOpcode (0x9#4 ++ x ++ y ++ n))) ∧
    (∃ t, exec (.seReg x y) s = .next t ∧ State.Frame noReg [] s t ∧
      ((s.reg x).toNat = (s.reg y).toNat → t.pc = s.pc + 4#16) ∧
      ((s.reg x).toNat ≠ (s.reg y).toNat → t.pc = s.pc + 2#16) ∧ (x = y → t.pc = s.pc + 4#16)) ∧
    (∃ t, exec (.sneReg x y) s = .next t ∧ State.Frame noReg [] s t ∧
      ((s.reg x).toNat ≠ (s.reg y).toNat → t.pc = s.pc + 4#16) ∧
      ((s.reg x).toNat = (s.reg y).toNat → t.pc = s.pc + 2#16) ∧ (x = y → t.pc = s.pc + 2#16))

/-! ## Loads and the ALU -/

/-- R101, R103: `6xnn` writes `nn`, `8xy0` copies `Vy`; no flag, nothing else but `pc`; any register may be the
destination, `VF` included; with `x = y` the copy changes only `pc`. Their words are those of R65 rows 8 and 10. -/
def Obligations.LoadAndCopyResult : Prop :=
  ∀ (s : State) (x y : Reg) (nn : Byte),
    decodeWord (0x6#4 ++ x ++ nn) = some (.ldImm x nn) ∧ decodeWord (0x8#4 ++ x ++ y ++ 0x0#4) = some (.ldReg x y) ∧
    (∃ t, exec (.ldImm x nn) s = .next t ∧ t.reg x = nn ∧ t.pc = s.pc + 2#16 ∧ State.Frame (onlyReg x) [] s t) ∧
    (∃ t, exec (.ldReg x y) s = .next t ∧ t.reg x = s.reg y ∧ t.pc = s.pc + 2#16 ∧
      State.Frame (onlyReg x) [] s t ∧ (x = y → State.Frame noReg [] s t))

/-- R102: `7xnn` adds modulo 256 and sets no flag: with `x` not 15 `VF` keeps its value even when the sum wraps, with
`x = 15` it takes the sum. `nn = 0` leaves everything but `pc`; `nn = 0xFF` subtracts 1. Its word is that of R65 row 9. -/
def Obligations.AddImmediateResult : Prop :=
  ∀ (s : State) (x : Reg) (nn : Byte),
    decodeWord (0x7#4 ++ x ++ nn) = some (.addImm x nn) ∧
    ∃ t, exec (.addImm x nn) s = .next t ∧ (t.reg x).toNat = ((s.reg x).toNat + nn.toNat) % 256 ∧
      (x ≠ State.vf → t.reg State.vf = s.reg State.vf) ∧ (nn = 0#8 → State.Frame noReg [] s t) ∧
      (nn = 0xFF#8 → (t.reg x).toNat = ((s.reg x).toNat + 255) % 256 ∧ t.reg x = s.reg x - 1#8) ∧
      t.pc = s.pc + 2#16 ∧ State.Frame (onlyReg x) [] s t

/-- R104, R105, R106: OR, AND and XOR bit by bit, `VF` untouched unless it is the destination; with `x = y` the first two
leave `Vx` and the third clears it. Their words are those of R65 rows 11 to 13. -/
def Obligations.LogicResult : Prop :=
  ∀ (s : State) (x y : Reg),
    decodeWord (0x8#4 ++ x ++ y ++ 0x1#4) = some (.orReg x y) ∧
    decodeWord (0x8#4 ++ x ++ y ++ 0x2#4) = some (.andReg x y) ∧
    decodeWord (0x8#4 ++ x ++ y ++ 0x3#4) = some (.xorReg x y) ∧
    (∃ t, exec (.orReg x y) s = .next t ∧
      (∀ b, (t.reg x).getLsbD b = ((s.reg x).getLsbD b || (s.reg y).getLsbD b)) ∧
      (x = y → t.reg x = s.reg x) ∧ t.pc = s.pc + 2#16 ∧ State.Frame (onlyReg x) [] s t) ∧
    (∃ t, exec (.andReg x y) s = .next t ∧
      (∀ b, (t.reg x).getLsbD b = ((s.reg x).getLsbD b && (s.reg y).getLsbD b)) ∧
      (x = y → t.reg x = s.reg x) ∧ t.pc = s.pc + 2#16 ∧ State.Frame (onlyReg x) [] s t) ∧
    (∃ t, exec (.xorReg x y) s = .next t ∧
      (∀ b, (t.reg x).getLsbD b = ((s.reg x).getLsbD b ^^ (s.reg y).getLsbD b)) ∧
      (x = y → t.reg x = 0#8) ∧ t.pc = s.pc + 2#16 ∧ State.Frame (onlyReg x) [] s t)

/-- `8xy4`: `VF` is the carry of the entry values; with `x` not 15 `Vx` is the sum modulo 256, with `x = 15` the sum is
lost (R107, R113; the order of the writes is the spec's decision D1, log entry 10). -/
def Obligations.AddResult : Prop :=
  ∀ (s : State) (x y : Reg),
    ∃ t, exec (.addReg x y) s = .next t ∧
      (t.reg State.vf).toNat = (if (s.reg x).toNat + (s.reg y).toNat > 255 then 1 else 0) ∧
      (x ≠ State.vf → (t.reg x).toNat = ((s.reg x).toNat + (s.reg y).toNat) % 256) ∧
      t.pc = s.pc + 2#16 ∧ State.Frame (regAndFlag x) [] s t

/-- `8xy5` and `8xy7`: `VF` is 1 exactly when the minuend is at least the subtrahend (entry values); with `x` not 15 `Vx`
is the difference modulo 256, with `x = 15` it is lost (R108, R110, R113; decision D1, log entry 10). -/
def Obligations.SubtractResult : Prop :=
  ∀ (s : State) (x y : Reg),
    (∃ t, exec (.sub x y) s = .next t ∧
      (t.reg State.vf).toNat = (if (s.reg x).toNat ≥ (s.reg y).toNat then 1 else 0) ∧
      (x ≠ State.vf → (t.reg x).toNat = ((s.reg x).toNat + 256 - (s.reg y).toNat) % 256) ∧
      t.pc = s.pc + 2#16 ∧ State.Frame (regAndFlag x) [] s t) ∧
    (∃ t, exec (.subn x y) s = .next t ∧
      (t.reg State.vf).toNat = (if (s.reg y).toNat ≥ (s.reg x).toNat then 1 else 0) ∧
      (x ≠ State.vf → (t.reg x).toNat = ((s.reg y).toNat + 256 - (s.reg x).toNat) % 256) ∧
      t.pc = s.pc + 2#16 ∧ State.Frame (regAndFlag x) [] s t)

/-- `8xy6` and `8xyE`: with `x` not 15 `Vx` is half, or twice modulo 256, of its entry value and `VF` is the bit shifted
out; with `x = 15` the flag just written is shifted, so `VF` ends 0 after `8xy6`, and 2 or 0 after `8xyE`. `y` has no
effect (R109, R111, R113; decision D1, log entry 10). -/
def Obligations.ShiftResult : Prop :=
  ∀ (s : State) (x y : Reg),
    (∃ t, exec (.shr x y) s = .next t ∧
      (x ≠ State.vf → (t.reg x).toNat = (s.reg x).toNat / 2 ∧ (t.reg State.vf).toNat = (s.reg x).toNat % 2) ∧
      (x = State.vf → t.reg State.vf = 0#8) ∧ (∀ y', exec (.shr x y') s = .next t) ∧
      t.pc = s.pc + 2#16 ∧ State.Frame (regAndFlag x) [] s t) ∧
    (∃ t, exec (.shl x y) s = .next t ∧
      (x ≠ State.vf → (t.reg x).toNat = 2 * (s.reg x).toNat % 256 ∧ (t.reg State.vf).toNat = (s.reg x).toNat / 128) ∧
      (x = State.vf → (t.reg State.vf).toNat = (if (s.reg x).toNat ≥ 128 then 2 else 0)) ∧
      (∀ y', exec (.shl x y') s = .next t) ∧
      t.pc = s.pc + 2#16 ∧ State.Frame (regAndFlag x) [] s t)

/-! ## The address register and memory -/

/-- R120: `Annn` puts `nnn`, zero-extended, into `I`; nothing else but `pc` changes. Its word is that of R65 row 20. -/
def Obligations.LoadAddressResult : Prop :=
  ∀ (s : State) (nnn : Addr),
    decodeWord (0xA#4 ++ nnn) = some (.ldI nnn) ∧
    ∃ t, exec (.ldI nnn) s = .next t ∧ t.i.toNat = nnn.toNat ∧ t.i.toNat < 4096 ∧ t.pc = s.pc + 2#16 ∧
      State.Frame noReg [.i] s t

/-- `Fx1E`: `I` is the sum modulo 65536, `VF` untouched (R121; the wrap is decision D22, log entry 18). `Fx29`: `I` is
FONT_BASE plus five times the whole of `Vx` (R122; decision D5, log entry 5). -/
def Obligations.AddressArithmeticResult : Prop :=
  ∀ (s : State) (x : Reg),
    (∃ t, exec (.addI x) s = .next t ∧ t.i.toNat = (s.i.toNat + (s.reg x).toNat) % 65536 ∧ t.pc = s.pc + 2#16 ∧
      State.Frame noReg [.i] s t) ∧
    (∃ t, exec (.ldF x) s = .next t ∧
      t.i.toNat = (s.platform.fontBase.toNat + 5 * (s.reg x).toNat) % 65536 ∧
      (s.platform.wellFormed = true → t.i.toNat = s.platform.fontBase.toNat + 5 * (s.reg x).toNat) ∧
      t.pc = s.pc + 2#16 ∧ State.Frame noReg [.i] s t)

/-- After a RESET, for a digit `d` up to 15 in `Vx`, `Fx29` makes `I` the address of glyph `d`: the five bytes from there
are bytes `5d` to `5d + 4` of FONT_DATA (R42, R122, R182; decisions D5 and D6, log entry 5). -/
def Obligations.GlyphAddressFindsTheGlyph : Prop :=
  ∀ (s : State) (p : Platform) (prog : List Byte) (k : KeySet) (x : Reg) (d : Byte),
    prog.length ≤ 3584 → p.fontBase.toNat + 79 ≤ 0x1FF → d.toNat ≤ 15 →
    ∃ t, exec (.ldF x) ((s.load p prog k).setReg x d) = .next t ∧
      ∀ j, (h : j < 5) → t.readByte (t.i.toNat + j) = p.fontData.toList.getD (5 * d.toNat + j) 0#8

/-- `Fx33` with `I` at most 4093: the hundreds, tens and ones of `Vx` go to `I`, `I + 1`, `I + 2`; every other byte, `I` and
all registers stay (R123). -/
def Obligations.DecimalDigitsResult : Prop :=
  ∀ (s : State) (x : Reg), s.i.toNat + 2 ≤ 4095 →
    ∃ t, exec (.ldB x) s = .next t ∧
      (t.readByte s.i.toNat).toNat = (s.reg x).toNat / 100 ∧
      (t.readByte (s.i.toNat + 1)).toNat = (s.reg x).toNat / 10 % 10 ∧
      (t.readByte (s.i.toNat + 2)).toNat = (s.reg x).toNat % 10 ∧
      (∀ a, a < s.i.toNat ∨ s.i.toNat + 3 ≤ a → t.readByte a = s.readByte a) ∧
      t.pc = s.pc + 2#16 ∧ State.Frame noReg [.mem] s t

/-- `Fx55` with all addresses in range: `V0` to `Vx` go to `I` to `I + x`; every other byte, `I` and all registers stay
(R124). -/
def Obligations.StoreRegistersResult : Prop :=
  ∀ (s : State) (x : Reg), s.i.toNat + x.toNat ≤ 4095 →
    ∃ t, exec (.storeRegs x) s = .next t ∧
      (∀ r : Reg, r.toNat ≤ x.toNat → t.readByte (s.i.toNat + r.toNat) = s.reg r) ∧
      (∀ a, a < s.i.toNat ∨ s.i.toNat + x.toNat < a → t.readByte a = s.readByte a) ∧
      t.pc = s.pc + 2#16 ∧ State.Frame noReg [.mem] s t

/-- `Fx65` with all addresses in range: `V0` to `Vx` are loaded from `I` to `I + x`; the registers above `x`, `I` and all of
memory stay (R125). -/
def Obligations.LoadRegistersResult : Prop :=
  ∀ (s : State) (x : Reg), s.i.toNat + x.toNat ≤ 4095 →
    ∃ t, exec (.loadRegs x) s = .next t ∧
      (∀ r : Reg, r.toNat ≤ x.toNat → t.reg r = s.readByte (s.i.toNat + r.toNat)) ∧
      t.pc = s.pc + 2#16 ∧ State.Frame (fun r => r.toNat ≤ x.toNat) [] s t

/-- `Fx55` and then `Fx65` with the same `x` and `I` restores the same registers, whatever was put in them in between
(R125; here registers are overwritten by any vector). -/
def Obligations.StoreThenLoadRestores : Prop :=
  ∀ (s : State) (x : Reg) (scratch : Vector Byte 16), s.i.toNat + x.toNat ≤ 4095 →
    ∃ t u, exec (.storeRegs x) s = .next t ∧ exec (.loadRegs x) { t with v := scratch } = .next u ∧
      (∀ r : Reg, r.toNat ≤ x.toNat → u.reg r = s.reg r) ∧
      (∀ r : Reg, x.toNat < r.toNat → u.reg r = scratch[r.toNat])

/-- A memory instruction with an address out of range halts the block, with the lowest bad address, `max(I, 4096)`, and the
cause of R151, and none of its effect happens (R123 to R125, R132, R151). No wrap before the check is decision D10, no
partial effect decision D11 (log entry 13). -/
def Obligations.OutOfRangeAccessHalts : Prop :=
  ∀ (s : State) (x y : Reg) (n : Nibble),
    (s.i.toNat + 2 > 4095 → exec (.ldB x) s = .next (s.haltedWith
      (.outOfBounds .memWrite (BitVec.ofNat 16 (max s.i.toNat 4096)) (some (0xF#4 ++ x ++ 0x33#8)) s.pc))) ∧
    (s.i.toNat + x.toNat > 4095 → exec (.storeRegs x) s = .next (s.haltedWith
      (.outOfBounds .memWrite (BitVec.ofNat 16 (max s.i.toNat 4096)) (some (0xF#4 ++ x ++ 0x55#8)) s.pc))) ∧
    (s.i.toNat + x.toNat > 4095 → exec (.loadRegs x) s = .next (s.haltedWith
      (.outOfBounds .memRead (BitVec.ofNat 16 (max s.i.toNat 4096)) (some (0xF#4 ++ x ++ 0x65#8)) s.pc))) ∧
    (n ≠ 0#4 → s.i.toNat + n.toNat > 4096 → exec (.drw x y n) s = .next (s.haltedWith
      (.outOfBounds .memRead (BitVec.ofNat 16 (max s.i.toNat 4096)) (some (0xD#4 ++ x ++ y ++ n)) s.pc)))

/-- A store is seen by the next fetch: after `Fx55` has stored two neighbouring registers at an address, a fetch from that
address forms the word of their bytes; after `Fx33`, a fetch from `I` or `I + 1` forms the word of two neighbouring digits
(R53, R83). -/
def Obligations.StoreIsSeenByTheNextFetch : Prop :=
  (∀ (s : State) (x r : Reg) (a : Word), s.i.toNat + x.toNat ≤ 4095 → r.toNat + 1 ≤ x.toNat →
    a.toNat = s.i.toNat + r.toNat →
    ∃ t, exec (.storeRegs x) s = .next t ∧ { t with pc := a }.fetchWord.extractLsb' 8 8 = s.reg r ∧
      { t with pc := a }.fetchWord.extractLsb' 0 8 = s.reg (r + 1#4)) ∧
  (∀ (s : State) (x : Reg) (a : Word), s.i.toNat + 2 ≤ 4095 →
    ∃ t, exec (.ldB x) s = .next t ∧
      (a.toNat = s.i.toNat →
        ({ t with pc := a }.fetchWord.extractLsb' 8 8).toNat = (s.reg x).toNat / 100 ∧
        ({ t with pc := a }.fetchWord.extractLsb' 0 8).toNat = (s.reg x).toNat / 10 % 10) ∧
      (a.toNat = s.i.toNat + 1 →
        ({ t with pc := a }.fetchWord.extractLsb' 8 8).toNat = (s.reg x).toNat / 10 % 10 ∧
        ({ t with pc := a }.fetchWord.extractLsb' 0 8).toNat = (s.reg x).toNat % 10))

/-! ## Display -/

/-- R131: `00E0` makes every pixel unlit; `VF`, every other register, memory and the timers stay. Its word is 0x00E0. -/
def Obligations.ClearScreenResult : Prop :=
  decodeWord 0x00E0#16 = some .cls ∧
  ∀ s : State, ∃ t, exec .cls s = .next t ∧ (∀ px py, px ≤ 63 → py ≤ 31 → t.pixel px py = false) ∧
    t.disp = 0#2048 ∧ t.reg State.vf = s.reg State.vf ∧ t.pc = s.pc + 2#16 ∧ State.Frame noReg [.disp] s t

/-- `Dxyn` with its bytes in range (or `n = 0`): each pixel on the screen is XORed with the sprite's bit there, bits off the
screen are dropped, `VF` is 1 exactly when a lit pixel was erased, and nothing else but `pc` changes (R132 to R134). The
leftmost column is bit 7 (R135, decision D7, log entry 19); the origin is not reduced (decision D8, log entry 20). -/
def Obligations.DrawResult : Prop :=
  ∀ (s : State) (x y : Reg) (n : Nibble), n = 0#4 ∨ s.i.toNat + n.toNat ≤ 4096 →
    ∃ t, exec (.drw x y n) s = .next t ∧
      (∀ px py, px ≤ 63 → py ≤ 31 → t.pixel px py = (s.pixel px py ^^ s.spriteBit x y n px py)) ∧
      (t.reg State.vf = 1#8 ∨ t.reg State.vf = 0#8) ∧
      (t.reg State.vf = 1#8 ↔
        ∃ px py, px ≤ 63 ∧ py ≤ 31 ∧ s.pixel px py = true ∧ s.spriteBit x y n px py = true) ∧
      t.pc = s.pc + 2#16 ∧ State.Frame (onlyReg State.vf) [.disp] s t

/-- The same sprite drawn twice at the same place restores the display, and the second draw sets `VF` exactly when some bit
of the sprite lit a pixel the first time (R132; spec/95_test_vectors.md S6). The coordinates are not in `VF`, which the
first draw writes. -/
def Obligations.DrawingTwiceRestoresTheDisplay : Prop :=
  ∀ (s : State) (x y : Reg) (n : Nibble), x ≠ State.vf → y ≠ State.vf →
    (n = 0#4 ∨ s.i.toNat + n.toNat ≤ 4096) →
    ∃ t u, exec (.drw x y n) s = .next t ∧ exec (.drw x y n) t = .next u ∧ u.disp = s.disp ∧
      (u.reg State.vf = 1#8 ↔
        ∃ px py, px ≤ 63 ∧ py ≤ 31 ∧ s.pixel px py = false ∧ s.spriteBit x y n px py = true)

/-- A sprite whose origin is off the screen, or that has no row, draws nothing and sets `VF` to 0 (R132, R134; decisions D8
and D9, log entry 20). -/
def Obligations.OffScreenSpriteDrawsNothing : Prop :=
  ∀ (s : State) (x y : Reg) (n : Nibble), (n = 0#4 ∨ s.i.toNat + n.toNat ≤ 4096) →
    (64 ≤ (s.reg x).toNat ∨ 32 ≤ (s.reg y).toNat ∨ n = 0#4) →
    ∃ t, exec (.drw x y n) s = .next t ∧ t.disp = s.disp ∧ t.reg State.vf = 0#8 ∧ t.pc = s.pc + 2#16 ∧
      State.Frame (onlyReg State.vf) [] s t

/-! ## Keys, timers, random -/

/-- `Ex9E` and `ExA1` with `Vx` at most 15: one skips when key `Vx` of the latched snapshot is held, the other when it is
not; nothing but `pc` changes (R140, R141, R20). -/
def Obligations.KeySkipResult : Prop :=
  ∀ (s : State) (x : Reg), (s.reg x).toNat ≤ 15 →
    (∃ t, exec (.skp x) s = .next t ∧ State.Frame noReg [] s t ∧
      t.pc = (if s.keys.getLsbD (s.reg x).toNat = true then s.pc + 4#16 else s.pc + 2#16)) ∧
    (∃ t, exec (.sknp x) s = .next t ∧ State.Frame noReg [] s t ∧
      t.pc = (if s.keys.getLsbD (s.reg x).toNat = true then s.pc + 2#16 else s.pc + 4#16))

/-- `Ex9E` and `ExA1` with `Vx` above 15 halt the block with KEY_INDEX and the value as the address (R140, R141, R151; the
spec's decision D12, log entry 14). -/
def Obligations.KeyIndexAboveFifteenHalts : Prop :=
  ∀ (s : State) (x : Reg), 15 < (s.reg x).toNat →
    exec (.skp x) s = .next (s.haltedWith
      (.outOfBounds .keyIndex (BitVec.ofNat 16 (s.reg x).toNat) (some (0xE#4 ++ x ++ 0x9E#8)) s.pc)) ∧
    exec (.sknp x) s = .next (s.haltedWith
      (.outOfBounds .keyIndex (BitVec.ofNat 16 (s.reg x).toNat) (some (0xE#4 ++ x ++ 0xA1#8)) s.pc))

/-- `Fx0A`: with no key held nothing changes, `pc` included; with some key held `Vx` is the lowest held index and `pc` goes
on (R142, R147; the choice of the lowest is the spec's decision D13, log entry 14). -/
def Obligations.KeyWaitResult : Prop :=
  ∀ (s : State) (x : Reg),
    ((∀ j, j < 16 → s.keys.getLsbD j = false) → exec (.ldVxK x) s = .next s) ∧
    (∀ k, k < 16 → s.keys.getLsbD k = true → (∀ j, j < k → s.keys.getLsbD j = false) →
      ∃ t, exec (.ldVxK x) s = .next t ∧ (t.reg x).toNat = k ∧ t.pc = s.pc + 2#16 ∧
        State.Frame (onlyReg x) [] s t)

/-- `Fx07` reads `DT` and does not change it, `Fx15` writes it, `Fx18` writes `ST` and with it the sound signal (R143 to
R145, R163; that the signal follows at once is the spec's decision D26, log entry 18). -/
def Obligations.TimerAccessResult : Prop :=
  ∀ (s : State) (x : Reg),
    (∃ t, exec (.ldVxDt x) s = .next t ∧ t.reg x = s.dt ∧ t.pc = s.pc + 2#16 ∧ State.Frame (onlyReg x) [] s t) ∧
    (∃ t, exec (.ldDtVx x) s = .next t ∧ t.dt = s.reg x ∧ t.pc = s.pc + 2#16 ∧ State.Frame noReg [.dt] s t) ∧
    (∃ t, exec (.ldStVx x) s = .next t ∧ t.st = s.reg x ∧ (t.soundActive = true ↔ 0 < (s.reg x).toNat) ∧
      t.pc = s.pc + 2#16 ∧ State.Frame noReg [.st] s t)

/-- `Cxnn`: `Vx` is the next byte of the random input, masked by `nn`, whatever that byte is, so no bit that `nn` has clear
is set; each one uses up one value (R146). The byte is a free value (decision D18, log entry 3). -/
def Obligations.RandomByteResult : Prop :=
  ∀ (s : State) (x : Reg) (nn : Byte),
    ∃ t, exec (.rnd x nn) s = .next t ∧ t.reg x = Config.rand s.draws &&& nn ∧
      (∀ b, nn.getLsbD b = false → (t.reg x).getLsbD b = false) ∧ t.draws = s.draws + 1 ∧
      t.pc = s.pc + 2#16 ∧ State.Frame (onlyReg x) [.draws] s t
end

