-- ==== Sys2Proof/Laws/Decode.lean ====
section
/-! SUPPORT. The fields of a joined word, and every word as the join of its fields (R61). -/

namespace Sys2Proof

/-! ## Fields of a join -/

@[simp] theorem opField_wordNnn (op : Nibble) (nnn : Addr) : opField (wordNnn op nnn) = op := by
  apply BitVec.eq_of_toNat_eq
  have := op.isLt; have := nnn.isLt
  simp only [opField, wordNnn, BitVec.toNat_append, BitVec.extractLsb'_toNat]
  rw [← Nat.shiftLeft_add_eq_or_of_lt (by omega)]
  simp only [Nat.shiftRight_eq_div_pow, Nat.shiftLeft_eq]; omega

@[simp] theorem nnnField_wordNnn (op : Nibble) (nnn : Addr) : nnnField (wordNnn op nnn) = nnn := by
  apply BitVec.eq_of_toNat_eq
  have := op.isLt; have := nnn.isLt
  simp only [nnnField, wordNnn, BitVec.toNat_append, BitVec.extractLsb'_toNat]
  rw [← Nat.shiftLeft_add_eq_or_of_lt (by omega)]
  simp only [Nat.shiftRight_eq_div_pow, Nat.shiftLeft_eq]; omega

/-- Four nibbles joined, as a number. -/
theorem wordXyn_toNat (op : Nibble) (x y : Reg) (n : Nibble) :
    (wordXyn op x y n).toNat = op.toNat * 4096 + x.toNat * 256 + y.toNat * 16 + n.toNat := by
  have := op.isLt; have := x.isLt; have := y.isLt; have := n.isLt
  simp only [wordXyn, BitVec.toNat_append]
  rw [← Nat.shiftLeft_add_eq_or_of_lt (by omega), ← Nat.shiftLeft_add_eq_or_of_lt (by omega),
    ← Nat.shiftLeft_add_eq_or_of_lt (by omega)]
  simp only [Nat.shiftLeft_eq]; omega

/-- A primary opcode, a register and a byte joined, as a number. -/
theorem wordXnn_toNat (op : Nibble) (x : Reg) (nn : Byte) :
    (wordXnn op x nn).toNat = op.toNat * 4096 + x.toNat * 256 + nn.toNat := by
  have := op.isLt; have := x.isLt; have := nn.isLt
  simp only [wordXnn, BitVec.toNat_append]
  rw [← Nat.shiftLeft_add_eq_or_of_lt (by omega), ← Nat.shiftLeft_add_eq_or_of_lt (by omega)]
  simp only [Nat.shiftLeft_eq]; omega

/-- A primary opcode and an address joined, as a number. -/
theorem wordNnn_toNat (op : Nibble) (nnn : Addr) : (wordNnn op nnn).toNat = op.toNat * 4096 + nnn.toNat := by
  have := op.isLt; have := nnn.isLt
  simp only [wordNnn, BitVec.toNat_append]
  rw [← Nat.shiftLeft_add_eq_or_of_lt (by omega)]
  simp only [Nat.shiftLeft_eq]

/-- A field of a word, as a number. -/
theorem field_toNat (w : Word) (lo len : Nat) : (w.extractLsb' lo len).toNat = w.toNat / 2 ^ lo % 2 ^ len := by
  rw [BitVec.extractLsb'_toNat, Nat.shiftRight_eq_div_pow]

section
variable (op : Nibble) (x y : Reg) (n : Nibble) (nn : Byte)

@[simp] theorem opField_wordXnn : opField (wordXnn op x nn) = op := by
  apply BitVec.eq_of_toNat_eq
  have := op.isLt; have := x.isLt; have := nn.isLt
  rw [opField, field_toNat, wordXnn_toNat]; omega

@[simp] theorem xField_wordXnn : xField (wordXnn op x nn) = x := by
  apply BitVec.eq_of_toNat_eq
  have := op.isLt; have := x.isLt; have := nn.isLt
  rw [xField, field_toNat, wordXnn_toNat]; omega

@[simp] theorem nnField_wordXnn : nnField (wordXnn op x nn) = nn := by
  apply BitVec.eq_of_toNat_eq
  have := op.isLt; have := x.isLt; have := nn.isLt
  rw [nnField, field_toNat, wordXnn_toNat]; omega

@[simp] theorem opField_wordXyn : opField (wordXyn op x y n) = op := by
  apply BitVec.eq_of_toNat_eq
  have := op.isLt; have := x.isLt; have := y.isLt; have := n.isLt
  rw [opField, field_toNat, wordXyn_toNat]; omega

@[simp] theorem xField_wordXyn : xField (wordXyn op x y n) = x := by
  apply BitVec.eq_of_toNat_eq
  have := op.isLt; have := x.isLt; have := y.isLt; have := n.isLt
  rw [xField, field_toNat, wordXyn_toNat]; omega

@[simp] theorem yField_wordXyn : yField (wordXyn op x y n) = y := by
  apply BitVec.eq_of_toNat_eq
  have := op.isLt; have := x.isLt; have := y.isLt; have := n.isLt
  rw [yField, field_toNat, wordXyn_toNat]; omega

@[simp] theorem nField_wordXyn : nField (wordXyn op x y n) = n := by
  apply BitVec.eq_of_toNat_eq
  have := op.isLt; have := x.isLt; have := y.isLt; have := n.isLt
  rw [nField, field_toNat, wordXyn_toNat]; omega

end

/-! ## A word as the join of its fields -/

/-- Every word is its primary opcode and its `nnn`. -/
theorem wordNnn_fields (w : Word) : wordNnn (opField w) (nnnField w) = w := by
  apply BitVec.eq_of_toNat_eq
  have := w.isLt
  rw [wordNnn_toNat, opField, nnnField, field_toNat, field_toNat]; omega

/-- Every word is its primary opcode, its `x` and its `nn`. -/
theorem wordXnn_fields (w : Word) : wordXnn (opField w) (xField w) (nnField w) = w := by
  apply BitVec.eq_of_toNat_eq
  have := w.isLt
  rw [wordXnn_toNat, opField, xField, nnField, field_toNat, field_toNat, field_toNat]; omega

/-- Every word is its four nibbles. -/
theorem wordXyn_fields (w : Word) : wordXyn (opField w) (xField w) (yField w) (nField w) = w := by
  apply BitVec.eq_of_toNat_eq
  have := w.isLt
  rw [wordXyn_toNat, opField, xField, yField, nField, field_toNat, field_toNat, field_toNat, field_toNat]; omega

end Sys2Proof
end

