-- ==== Sys2Proof/Laws/State.lean ====
section
/-! SUPPORT. What each update of the state does to each field: one lemma per field per update, each true by
definition. No later proof unfolds a record update. -/

namespace Sys2Proof.Machine

variable (s : State)

/-! ## setReg -/

@[simp] theorem State.setReg_v (x : Reg) (b : Byte) : (s.setReg x b).v = s.v.set x.toNat b := rfl
@[simp] theorem State.setReg_i (x : Reg) (b : Byte) : (s.setReg x b).i = s.i := rfl
@[simp] theorem State.setReg_pc (x : Reg) (b : Byte) : (s.setReg x b).pc = s.pc := rfl
@[simp] theorem State.setReg_sp (x : Reg) (b : Byte) : (s.setReg x b).sp = s.sp := rfl
@[simp] theorem State.setReg_stack (x : Reg) (b : Byte) : (s.setReg x b).stack = s.stack := rfl
@[simp] theorem State.setReg_dt (x : Reg) (b : Byte) : (s.setReg x b).dt = s.dt := rfl
@[simp] theorem State.setReg_st (x : Reg) (b : Byte) : (s.setReg x b).st = s.st := rfl
@[simp] theorem State.setReg_mem (x : Reg) (b : Byte) : (s.setReg x b).mem = s.mem := rfl
@[simp] theorem State.setReg_disp (x : Reg) (b : Byte) : (s.setReg x b).disp = s.disp := rfl
@[simp] theorem State.setReg_keys (x : Reg) (b : Byte) : (s.setReg x b).keys = s.keys := rfl
@[simp] theorem State.setReg_run (x : Reg) (b : Byte) : (s.setReg x b).run = s.run := rfl
@[simp] theorem State.setReg_fault (x : Reg) (b : Byte) : (s.setReg x b).fault = s.fault := rfl
@[simp] theorem State.setReg_platform (x : Reg) (b : Byte) : (s.setReg x b).platform = s.platform := rfl
@[simp] theorem State.setReg_draws (x : Reg) (b : Byte) : (s.setReg x b).draws = s.draws := rfl
@[simp] theorem State.setReg_pending (x : Reg) (b : Byte) : (s.setReg x b).pending = s.pending := rfl

/-! ## advance -/

@[simp] theorem State.advance_v : (s.advance).v = s.v := rfl
@[simp] theorem State.advance_i : (s.advance).i = s.i := rfl
@[simp] theorem State.advance_pc : (s.advance).pc = s.pc + 2#16 := rfl
@[simp] theorem State.advance_sp : (s.advance).sp = s.sp := rfl
@[simp] theorem State.advance_stack : (s.advance).stack = s.stack := rfl
@[simp] theorem State.advance_dt : (s.advance).dt = s.dt := rfl
@[simp] theorem State.advance_st : (s.advance).st = s.st := rfl
@[simp] theorem State.advance_mem : (s.advance).mem = s.mem := rfl
@[simp] theorem State.advance_disp : (s.advance).disp = s.disp := rfl
@[simp] theorem State.advance_keys : (s.advance).keys = s.keys := rfl
@[simp] theorem State.advance_run : (s.advance).run = s.run := rfl
@[simp] theorem State.advance_fault : (s.advance).fault = s.fault := rfl
@[simp] theorem State.advance_platform : (s.advance).platform = s.platform := rfl
@[simp] theorem State.advance_draws : (s.advance).draws = s.draws := rfl
@[simp] theorem State.advance_pending : (s.advance).pending = s.pending := rfl

/-! ## skipIf -/

@[simp] theorem State.skipIf_v (c : Bool) : (s.skipIf c).v = s.v := rfl
@[simp] theorem State.skipIf_i (c : Bool) : (s.skipIf c).i = s.i := rfl
@[simp] theorem State.skipIf_pc (c : Bool) : (s.skipIf c).pc = if c then s.pc + 4#16 else s.pc + 2#16 := rfl
@[simp] theorem State.skipIf_sp (c : Bool) : (s.skipIf c).sp = s.sp := rfl
@[simp] theorem State.skipIf_stack (c : Bool) : (s.skipIf c).stack = s.stack := rfl
@[simp] theorem State.skipIf_dt (c : Bool) : (s.skipIf c).dt = s.dt := rfl
@[simp] theorem State.skipIf_st (c : Bool) : (s.skipIf c).st = s.st := rfl
@[simp] theorem State.skipIf_mem (c : Bool) : (s.skipIf c).mem = s.mem := rfl
@[simp] theorem State.skipIf_disp (c : Bool) : (s.skipIf c).disp = s.disp := rfl
@[simp] theorem State.skipIf_keys (c : Bool) : (s.skipIf c).keys = s.keys := rfl
@[simp] theorem State.skipIf_run (c : Bool) : (s.skipIf c).run = s.run := rfl
@[simp] theorem State.skipIf_fault (c : Bool) : (s.skipIf c).fault = s.fault := rfl
@[simp] theorem State.skipIf_platform (c : Bool) : (s.skipIf c).platform = s.platform := rfl
@[simp] theorem State.skipIf_draws (c : Bool) : (s.skipIf c).draws = s.draws := rfl
@[simp] theorem State.skipIf_pending (c : Bool) : (s.skipIf c).pending = s.pending := rfl

/-! ## jumpTo -/

@[simp] theorem State.jumpTo_v (target : Word) : (s.jumpTo target).v = s.v := rfl
@[simp] theorem State.jumpTo_i (target : Word) : (s.jumpTo target).i = s.i := rfl
@[simp] theorem State.jumpTo_pc (target : Word) : (s.jumpTo target).pc = target := rfl
@[simp] theorem State.jumpTo_sp (target : Word) : (s.jumpTo target).sp = s.sp := rfl
@[simp] theorem State.jumpTo_stack (target : Word) : (s.jumpTo target).stack = s.stack := rfl
@[simp] theorem State.jumpTo_dt (target : Word) : (s.jumpTo target).dt = s.dt := rfl
@[simp] theorem State.jumpTo_st (target : Word) : (s.jumpTo target).st = s.st := rfl
@[simp] theorem State.jumpTo_mem (target : Word) : (s.jumpTo target).mem = s.mem := rfl
@[simp] theorem State.jumpTo_disp (target : Word) : (s.jumpTo target).disp = s.disp := rfl
@[simp] theorem State.jumpTo_keys (target : Word) : (s.jumpTo target).keys = s.keys := rfl
@[simp] theorem State.jumpTo_run (target : Word) : (s.jumpTo target).run = s.run := rfl
@[simp] theorem State.jumpTo_fault (target : Word) : (s.jumpTo target).fault = s.fault := rfl
@[simp] theorem State.jumpTo_platform (target : Word) : (s.jumpTo target).platform = s.platform := rfl
@[simp] theorem State.jumpTo_draws (target : Word) : (s.jumpTo target).draws = s.draws := rfl
@[simp] theorem State.jumpTo_pending (target : Word) : (s.jumpTo target).pending = s.pending := rfl

/-! ## storeBytes -/

@[simp] theorem State.storeBytes_v (a : Nat) (bytes : List Byte) : (s.storeBytes a bytes).v = s.v := rfl
@[simp] theorem State.storeBytes_i (a : Nat) (bytes : List Byte) : (s.storeBytes a bytes).i = s.i := rfl
@[simp] theorem State.storeBytes_pc (a : Nat) (bytes : List Byte) : (s.storeBytes a bytes).pc = s.pc := rfl
@[simp] theorem State.storeBytes_sp (a : Nat) (bytes : List Byte) : (s.storeBytes a bytes).sp = s.sp := rfl
@[simp] theorem State.storeBytes_stack (a : Nat) (bytes : List Byte) : (s.storeBytes a bytes).stack = s.stack := rfl
@[simp] theorem State.storeBytes_dt (a : Nat) (bytes : List Byte) : (s.storeBytes a bytes).dt = s.dt := rfl
@[simp] theorem State.storeBytes_st (a : Nat) (bytes : List Byte) : (s.storeBytes a bytes).st = s.st := rfl
@[simp] theorem State.storeBytes_mem (a : Nat) (bytes : List Byte) : (s.storeBytes a bytes).mem = Memory.writeBytes s.platform s.mem a bytes := rfl
@[simp] theorem State.storeBytes_disp (a : Nat) (bytes : List Byte) : (s.storeBytes a bytes).disp = s.disp := rfl
@[simp] theorem State.storeBytes_keys (a : Nat) (bytes : List Byte) : (s.storeBytes a bytes).keys = s.keys := rfl
@[simp] theorem State.storeBytes_run (a : Nat) (bytes : List Byte) : (s.storeBytes a bytes).run = s.run := rfl
@[simp] theorem State.storeBytes_fault (a : Nat) (bytes : List Byte) : (s.storeBytes a bytes).fault = s.fault := rfl
@[simp] theorem State.storeBytes_platform (a : Nat) (bytes : List Byte) : (s.storeBytes a bytes).platform = s.platform := rfl
@[simp] theorem State.storeBytes_draws (a : Nat) (bytes : List Byte) : (s.storeBytes a bytes).draws = s.draws := rfl
@[simp] theorem State.storeBytes_pending (a : Nat) (bytes : List Byte) : (s.storeBytes a bytes).pending = s.pending := rfl

/-! ## raise -/

@[simp] theorem State.raise_v (r : FaultRecord) : (s.raise r).v = s.v := rfl
@[simp] theorem State.raise_i (r : FaultRecord) : (s.raise r).i = s.i := rfl
@[simp] theorem State.raise_pc (r : FaultRecord) : (s.raise r).pc = s.pc := rfl
@[simp] theorem State.raise_sp (r : FaultRecord) : (s.raise r).sp = s.sp := rfl
@[simp] theorem State.raise_stack (r : FaultRecord) : (s.raise r).stack = s.stack := rfl
@[simp] theorem State.raise_dt (r : FaultRecord) : (s.raise r).dt = s.dt := rfl
@[simp] theorem State.raise_st (r : FaultRecord) : (s.raise r).st = s.st := rfl
@[simp] theorem State.raise_mem (r : FaultRecord) : (s.raise r).mem = s.mem := rfl
@[simp] theorem State.raise_disp (r : FaultRecord) : (s.raise r).disp = s.disp := rfl
@[simp] theorem State.raise_keys (r : FaultRecord) : (s.raise r).keys = s.keys := rfl
@[simp] theorem State.raise_run (r : FaultRecord) : (s.raise r).run = .halted := rfl
@[simp] theorem State.raise_fault (r : FaultRecord) : (s.raise r).fault = some r := rfl
@[simp] theorem State.raise_platform (r : FaultRecord) : (s.raise r).platform = s.platform := rfl
@[simp] theorem State.raise_draws (r : FaultRecord) : (s.raise r).draws = s.draws := rfl
@[simp] theorem State.raise_pending (r : FaultRecord) : (s.raise r).pending = s.pending := rfl

/-! ## decrementTimers -/

@[simp] theorem State.decrementTimers_v : (s.decrementTimers).v = s.v := rfl
@[simp] theorem State.decrementTimers_i : (s.decrementTimers).i = s.i := rfl
@[simp] theorem State.decrementTimers_pc : (s.decrementTimers).pc = s.pc := rfl
@[simp] theorem State.decrementTimers_sp : (s.decrementTimers).sp = s.sp := rfl
@[simp] theorem State.decrementTimers_stack : (s.decrementTimers).stack = s.stack := rfl
@[simp] theorem State.decrementTimers_dt : (s.decrementTimers).dt = countDown s.dt := rfl
@[simp] theorem State.decrementTimers_st : (s.decrementTimers).st = countDown s.st := rfl
@[simp] theorem State.decrementTimers_mem : (s.decrementTimers).mem = s.mem := rfl
@[simp] theorem State.decrementTimers_disp : (s.decrementTimers).disp = s.disp := rfl
@[simp] theorem State.decrementTimers_keys : (s.decrementTimers).keys = s.keys := rfl
@[simp] theorem State.decrementTimers_run : (s.decrementTimers).run = s.run := rfl
@[simp] theorem State.decrementTimers_fault : (s.decrementTimers).fault = s.fault := rfl
@[simp] theorem State.decrementTimers_platform : (s.decrementTimers).platform = s.platform := rfl
@[simp] theorem State.decrementTimers_draws : (s.decrementTimers).draws = s.draws := rfl
@[simp] theorem State.decrementTimers_pending : (s.decrementTimers).pending = s.pending := rfl

/-! ## latchKeys -/

@[simp] theorem State.latchKeys_v (k : KeySet) : (s.latchKeys k).v = s.v := rfl
@[simp] theorem State.latchKeys_i (k : KeySet) : (s.latchKeys k).i = s.i := rfl
@[simp] theorem State.latchKeys_pc (k : KeySet) : (s.latchKeys k).pc = s.pc := rfl
@[simp] theorem State.latchKeys_sp (k : KeySet) : (s.latchKeys k).sp = s.sp := rfl
@[simp] theorem State.latchKeys_stack (k : KeySet) : (s.latchKeys k).stack = s.stack := rfl
@[simp] theorem State.latchKeys_dt (k : KeySet) : (s.latchKeys k).dt = s.dt := rfl
@[simp] theorem State.latchKeys_st (k : KeySet) : (s.latchKeys k).st = s.st := rfl
@[simp] theorem State.latchKeys_mem (k : KeySet) : (s.latchKeys k).mem = s.mem := rfl
@[simp] theorem State.latchKeys_disp (k : KeySet) : (s.latchKeys k).disp = s.disp := rfl
@[simp] theorem State.latchKeys_keys (k : KeySet) : (s.latchKeys k).keys = k := rfl
@[simp] theorem State.latchKeys_run (k : KeySet) : (s.latchKeys k).run = s.run := rfl
@[simp] theorem State.latchKeys_fault (k : KeySet) : (s.latchKeys k).fault = s.fault := rfl
@[simp] theorem State.latchKeys_platform (k : KeySet) : (s.latchKeys k).platform = s.platform := rfl
@[simp] theorem State.latchKeys_draws (k : KeySet) : (s.latchKeys k).draws = s.draws := rfl
@[simp] theorem State.latchKeys_pending (k : KeySet) : (s.latchKeys k).pending = s.pending := rfl

/-! ## takeEvent -/

@[simp] theorem State.takeEvent_v : (s.takeEvent).v = s.v := rfl
@[simp] theorem State.takeEvent_i : (s.takeEvent).i = s.i := rfl
@[simp] theorem State.takeEvent_pc : (s.takeEvent).pc = s.pc := rfl
@[simp] theorem State.takeEvent_sp : (s.takeEvent).sp = s.sp := rfl
@[simp] theorem State.takeEvent_stack : (s.takeEvent).stack = s.stack := rfl
@[simp] theorem State.takeEvent_dt : (s.takeEvent).dt = s.dt := rfl
@[simp] theorem State.takeEvent_st : (s.takeEvent).st = s.st := rfl
@[simp] theorem State.takeEvent_mem : (s.takeEvent).mem = s.mem := rfl
@[simp] theorem State.takeEvent_disp : (s.takeEvent).disp = s.disp := rfl
@[simp] theorem State.takeEvent_keys : (s.takeEvent).keys = s.keys := rfl
@[simp] theorem State.takeEvent_run : (s.takeEvent).run = s.run := rfl
@[simp] theorem State.takeEvent_fault : (s.takeEvent).fault = s.fault := rfl
@[simp] theorem State.takeEvent_platform : (s.takeEvent).platform = s.platform := rfl
@[simp] theorem State.takeEvent_draws : (s.takeEvent).draws = s.draws := rfl
@[simp] theorem State.takeEvent_pending : (s.takeEvent).pending = s.pending.tail := rfl

/-! ## Operations that are others by definition -/

@[simp] theorem State.setFlag_eq (f : Byte) : s.setFlag f = s.setReg State.vf f := rfl

@[simp] theorem State.raiseOob_eq (c : Cause) (a : Word) (i : Instr) :
    s.raiseOob c a i = s.raise (.outOfBounds c a (some (encode i)) s.pc) := rfl

end Sys2Proof.Machine
end

