-- ==== Sys2Proof/Laws/Ops.lean ====
section
/-! SUPPORT. What the register, pc, fetch and operand operations do. -/

namespace Sys2Proof.Machine

variable (s : State)

/-! ## Registers -/

/-- A register read after a register write. -/
theorem State.reg_setReg (x y : Reg) (b : Byte) : (s.setReg x b).reg y = if y = x then b else s.reg y := by
  unfold State.reg State.setReg
  by_cases h : y = x
  · subst h; simp
  · have hn : x.toNat ≠ y.toNat := fun e => h (BitVec.eq_of_toNat_eq e.symm)
    simp [h, hn]

@[simp] theorem State.reg_setReg_same (x : Reg) (b : Byte) : (s.setReg x b).reg x = b := by
  simp [State.reg_setReg]

@[simp] theorem State.reg_setReg_other {x y : Reg} (b : Byte) (h : y ≠ x) : (s.setReg x b).reg y = s.reg y := by
  simp [State.reg_setReg, h]

/-- The registers of two states whose register files are equal. -/
theorem State.reg_congr {s t : State} (h : t.v = s.v) (x : Reg) : t.reg x = s.reg x := by
  simp [State.reg, h]

@[simp] theorem State.reg_advance (x : Reg) : s.advance.reg x = s.reg x := rfl
@[simp] theorem State.reg_skipIf (c : Bool) (x : Reg) : (s.skipIf c).reg x = s.reg x := rfl
@[simp] theorem State.reg_jumpTo (w : Word) (x : Reg) : (s.jumpTo w).reg x = s.reg x := rfl
@[simp] theorem State.reg_storeBytes (a : Nat) (bs : List Byte) (x : Reg) : (s.storeBytes a bs).reg x = s.reg x := rfl
@[simp] theorem State.reg_raise (r : FaultRecord) (x : Reg) : (s.raise r).reg x = s.reg x := rfl

/-! ## Byte reads under updates that leave memory -/

/-- A byte read depends on the platform and the memory alone. -/
theorem State.readByte_congr {s t : State} (hm : t.mem = s.mem) (hp : t.platform = s.platform) (a : Nat) :
    t.readByte a = s.readByte a := by
  simp [State.readByte, hm, hp]

@[simp] theorem State.readByte_setReg (x : Reg) (b : Byte) (a : Nat) : (s.setReg x b).readByte a = s.readByte a := rfl
@[simp] theorem State.readByte_advance (a : Nat) : s.advance.readByte a = s.readByte a := rfl
@[simp] theorem State.readByte_skipIf (c : Bool) (a : Nat) : (s.skipIf c).readByte a = s.readByte a := rfl
@[simp] theorem State.readByte_jumpTo (w : Word) (a : Nat) : (s.jumpTo w).readByte a = s.readByte a := rfl
@[simp] theorem State.readByte_raise (r : FaultRecord) (a : Nat) : (s.raise r).readByte a = s.readByte a := rfl

@[simp] theorem State.readBytes_length (a n : Nat) : (s.readBytes a n).length = n := by
  induction n generalizing a with
  | zero => rfl
  | succ n ih => simp [State.readBytes, ih]

/-- Byte `j` of a block read is the byte at `a + j`. -/
theorem State.readBytes_getElem (a n j : Nat) (h : j < (s.readBytes a n).length) :
    (s.readBytes a n)[j] = s.readByte (a + j) := by
  induction n generalizing a j with
  | zero => simp [State.readBytes] at h
  | succ n ih =>
    cases j with
    | zero => rfl
    | succ j =>
      simp only [State.readBytes, List.getElem_cons_succ]
      rw [ih (a + 1) j (by simpa [State.readBytes] using h), show a + 1 + j = a + (j + 1) by omega]

/-- A block read depends on the platform and the memory alone. -/
theorem State.readBytes_congr {s t : State} (hm : t.mem = s.mem) (hp : t.platform = s.platform) (a n : Nat) :
    t.readBytes a n = s.readBytes a n := by
  induction n generalizing a with
  | zero => rfl
  | succ n ih => rw [State.readBytes, State.readBytes, ih, State.readByte_congr hm hp]

/-! ## Register blocks -/

@[simp] theorem State.regsUpTo_length (x : Reg) : (s.regsUpTo x).length = x.toNat + 1 := by
  have := x.isLt
  simp [State.regsUpTo]; omega

/-- Entry `j` of `V0..Vx` is `V[j]`. -/
theorem State.regsUpTo_getElem (x : Reg) (j : Nat) (h : j < (s.regsUpTo x).length) :
    (s.regsUpTo x)[j] = s.reg (BitVec.ofNat 4 j) := by
  have hx := x.isLt
  have hj : j < 16 := by simp at h; omega
  simp [State.regsUpTo, State.reg, Nat.mod_eq_of_lt hj]

/-- Loading a block of registers writes those of the block and no other. -/
theorem State.reg_setRegs (bs : List Byte) (r : Nat) (h : r + bs.length ≤ 16) (y : Reg) :
    (s.setRegs r bs).reg y = if r ≤ y.toNat then bs.getD (y.toNat - r) (s.reg y) else s.reg y := by
  induction bs generalizing s r with
  | nil => simp [State.setRegs]
  | cons b bs ih =>
    simp only [List.length_cons] at h
    have hr : (BitVec.ofNat 4 r).toNat = r := by simp; omega
    rw [State.setRegs, ih _ (r + 1) (by omega), State.reg_setReg]
    have key : y = BitVec.ofNat 4 r ↔ y.toNat = r := by
      rw [← BitVec.toNat_inj, hr]
    rcases Nat.lt_trichotomy y.toNat r with hy | hy | hy
    · have h1 : ¬ r + 1 ≤ y.toNat := by omega
      have h2 : ¬ r ≤ y.toNat := by omega
      have h3 : ¬ y = BitVec.ofNat 4 r := by rw [key]; omega
      simp [h1, h2, h3]
    · have h1 : ¬ r + 1 ≤ y.toNat := by omega
      have h2 : r ≤ y.toNat := by omega
      have h3 : y = BitVec.ofNat 4 r := key.mpr hy
      have h4 : y.toNat - r = 0 := by omega
      rw [if_neg h1, if_pos h2, if_pos h3, h4]; rfl
    · have h1 : r + 1 ≤ y.toNat := by omega
      have h2 : r ≤ y.toNat := by omega
      have h3 : ¬ y = BitVec.ofNat 4 r := by rw [key]; omega
      obtain ⟨k, hk⟩ : ∃ k, y.toNat - r = k + 1 := ⟨y.toNat - r - 1, by omega⟩
      rw [if_pos h1, if_pos h2, if_neg h3, hk, show y.toNat - (r + 1) = k by omega]; rfl

/-- Loading a block of registers changes nothing but registers. -/
theorem State.setRegs_eq (bs : List Byte) (r : Nat) : s.setRegs r bs = { s with v := (s.setRegs r bs).v } := by
  induction bs generalizing s r with
  | nil => rfl
  | cons b bs ih => rw [State.setRegs, ih]; rfl

/-! ## Fetch -/

/-- The fetch check in numbers (R82). -/
theorem State.fetchable_iff :
    s.fetchable = true ↔ s.pc.toNat % 2 = 0 ∧ 0x200 ≤ s.pc.toNat ∧ s.pc.toNat ≤ 0xFFE := by
  have h : s.pc.getLsbD 0 = decide (s.pc.toNat % 2 = 1) := by
    simp [BitVec.getLsbD, Nat.testBit_zero]
  simp only [State.fetchable, h, Bool.and_eq_true, Bool.not_eq_true', decide_eq_false_iff_not, decide_eq_true_eq]
  omega

/-- A word is put together from its two bytes and taken apart again (R45). -/
@[simp] theorem wordOfBytes_highByte_lowByte (w : Word) : wordOfBytes (highByte w) (lowByte w) = w := by
  apply BitVec.eq_of_toNat_eq
  have := w.isLt
  simp only [wordOfBytes, highByte, lowByte, BitVec.toNat_append, BitVec.extractLsb'_toNat]
  rw [← Nat.shiftLeft_add_eq_or_of_lt (by omega)]
  simp [Nat.shiftRight_eq_div_pow, Nat.shiftLeft_eq]; omega

@[simp] theorem highByte_wordOfBytes (h l : Byte) : highByte (wordOfBytes h l) = h := by
  apply BitVec.eq_of_toNat_eq
  have := l.isLt
  have := h.isLt
  simp only [wordOfBytes, highByte, BitVec.toNat_append, BitVec.extractLsb'_toNat]
  rw [← Nat.shiftLeft_add_eq_or_of_lt (by omega)]
  simp [Nat.shiftRight_eq_div_pow, Nat.shiftLeft_eq]; omega

@[simp] theorem lowByte_wordOfBytes (h l : Byte) : lowByte (wordOfBytes h l) = l := by
  apply BitVec.eq_of_toNat_eq
  have := l.isLt
  have := h.isLt
  simp only [wordOfBytes, lowByte, BitVec.toNat_append, BitVec.extractLsb'_toNat]
  rw [← Nat.shiftLeft_add_eq_or_of_lt (by omega)]
  simp [Nat.shiftLeft_eq]; omega

/-! ## Operands -/

@[simp] theorem zextAddr_toNat (nnn : Addr) : (zextAddr nnn).toNat = nnn.toNat := by
  have := nnn.isLt
  simp [zextAddr]; omega

@[simp] theorem zextByte_toNat (b : Byte) : (zextByte b).toNat = b.toNat := by
  have := b.isLt
  simp [zextByte]; omega

/-- The bounds check in numbers (R41, R132). -/
theorem State.inRange_iff (n : Nat) : s.inRange n = true ↔ n = 0 ∨ s.i.toNat + n ≤ 4096 := by
  rw [State.inRange, Bool.or_eq_true, decide_eq_true_eq, decide_eq_true_eq, Memory.size]

/-- The lowest bad address is `max(I, 4096)` (R151). -/
theorem State.lowestBad_eq : s.lowestBad = BitVec.ofNat 16 (max s.i.toNat 4096) := by
  unfold State.lowestBad Memory.size
  split
  · rw [Nat.max_eq_right (by omega)]
  · rw [Nat.max_eq_left (by omega)]; simp

/-- A ranged instruction either has its effect, in range, or halts with everything else kept (R87). -/
theorem State.withRange_cases (n : Nat) (c : Cause) (i : Instr) (e : State) :
    (s.inRange n = true ∧ s.withRange n c i e = e) ∨
    (s.inRange n = false ∧
      s.withRange n c i e = s.raise (.outOfBounds c s.lowestBad (some (encode i)) s.pc)) := by
  unfold State.withRange
  cases h : s.inRange n <;> simp

/-- A key skip either has its effect or halts with everything else kept (R140, R141). -/
theorem State.withKey_cases (k : Byte) (i : Instr) (e : State) :
    (k.toNat ≤ 15 ∧ s.withKey k i e = e) ∨
    (15 < k.toNat ∧ s.withKey k i e = s.raise (.outOfBounds .keyIndex (zextByte k) (some (encode i)) s.pc)) := by
  unfold State.withKey
  by_cases h : k.toNat ≤ 15
  · simp [h]
  · simp [h]; omega

/-- The lowest held key: none is held, or it is held and no lower one is (R147). -/
theorem State.lowestKey_cases :
    (s.lowestKey = none ∧ ∀ j, j < 16 → s.keys.getLsbD j = false) ∨
    (∃ k, s.lowestKey = some k ∧ k < 16 ∧ s.keys.getLsbD k = true ∧ ∀ j, j < k → s.keys.getLsbD j = false) := by
  cases h : s.lowestKey with
  | none =>
    left
    simpa [State.lowestKey] using h
  | some k =>
    right
    simp only [State.lowestKey, List.find?_range_eq_some] at h
    exact ⟨k, rfl, by simpa using h.2.1, h.1, fun j hj => by simpa using h.2.2 j hj⟩

/-- A timer's decrement in numbers: one less, never below 0 (R161). -/
@[simp] theorem countDown_toNat (t : Byte) : (countDown t).toNat = t.toNat - 1 := by
  unfold countDown
  split
  · next h => simp [h]
  · next h =>
    have h0 : t.toNat ≠ 0 := fun e => h (BitVec.eq_of_toNat_eq (by simpa using e))
    have := t.isLt
    rw [BitVec.toNat_sub]; simp; omega

@[simp] theorem flagByte_toNat (b : Bool) : (flagByte b).toNat = if b then 1 else 0 := by
  cases b <;> rfl

/-! ## Events -/

/-- A TICK of a running block. -/
theorem State.tick_running (k : KeySet) (h : s.run = .running) :
    s.tick k = s.decrementTimers.latchKeys k := by
  simp [State.tick, h]

/-- A TICK of a halted block changes nothing (R88). -/
theorem State.tick_halted (k : KeySet) (h : s.run = .halted) : s.tick k = s := by
  simp [State.tick, h]

/-- The middle of a TICK has the timers and the display that the TICK leaves (R136, R161). -/
theorem State.midTick_eq_tick (k : KeySet) :
    s.midTick.dt = (s.tick k).dt ∧ s.midTick.st = (s.tick k).st ∧ s.midTick.disp = (s.tick k).disp := by
  unfold State.midTick State.tick
  split <;> exact ⟨rfl, rfl, rfl⟩

/-- The middle of a TICK of a running block. -/
theorem State.midTick_running (h : s.run = .running) : s.midTick = s.decrementTimers := by
  simp [State.midTick, h]

/-- The middle of a TICK of a halted block: nothing has changed (R88). -/
theorem State.midTick_halted (h : s.run = .halted) : s.midTick = s := by
  simp [State.midTick, h]

/-- What a RESET answers: its load, or a stop for one of three reasons (R180, R182, R183). -/
theorem State.resetEvent_cases (p : Platform) (prog : Option (List Byte)) (k : KeySet) :
    (∃ bytes, prog = some bytes ∧ bytes.length ≤ 3584 ∧ p.wellFormed = true ∧
      s.resetEvent p prog k = .next (s.load p bytes k)) ∨
    (prog = none ∧ s.resetEvent p prog k = .fault (.loadError none)) ∨
    (∃ bytes, prog = some bytes ∧ 3584 < bytes.length ∧
      s.resetEvent p prog k = .fault (.loadError (some bytes.length))) ∨
    (∃ bytes, prog = some bytes ∧ p.wellFormed = false ∧ s.resetEvent p prog k = .fault (.fontBase p.fontBase)) := by
  cases prog with
  | none => exact .inr (.inl ⟨rfl, rfl⟩)
  | some bytes =>
    by_cases hl : bytes.length ≤ 3584
    · have hf : Config.programFits bytes = true := decide_eq_true hl
      cases hp : p.wellFormed with
      | true => exact .inl ⟨bytes, rfl, hl, rfl, by simp [State.resetEvent, hf, hp]⟩
      | false => exact .inr (.inr (.inr ⟨bytes, rfl, rfl, by simp [State.resetEvent, hf, hp]⟩))
    · have hf : Config.programFits bytes = false := decide_eq_false hl
      exact .inr (.inr (.inl ⟨bytes, rfl, by omega, by simp [State.resetEvent, hf]⟩))

end Sys2Proof.Machine
end

