-- ==== Sys2Proof/Laws/Display.lean ====
section
/-! SUPPORT. What drawing does to the screen and the collision accumulator, said once (R132 to R135). -/

namespace Sys2Proof.Machine

/-- The pixel of a canvas. -/
def Canvas.pixel (c : Canvas) (px py : Nat) : Bool := c.disp.getLsbD (pixelIndex px py)

/-- Going from `c` to `c'` XORs the bits of `b` onto the screen, and sets the accumulator exactly when one of them meets a
lit pixel. Bits off the screen do nothing. -/
def Canvas.Draws (c c' : Canvas) (b : Nat → Nat → Bool) : Prop :=
  (∀ px py, px ≤ 63 → py ≤ 31 → c'.pixel px py = (c.pixel px py ^^ b px py)) ∧
  (c'.hit = true ↔ c.hit = true ∨ ∃ px py, px ≤ 63 ∧ py ≤ 31 ∧ c.pixel px py = true ∧ b px py = true)

/-- Drawing nothing. -/
theorem Canvas.draws_nothing (c : Canvas) (b : Nat → Nat → Bool) (hb : ∀ px py, b px py = false) : c.Draws c b := by
  constructor
  · intro px py _ _; simp [hb]
  · simp [hb]

/-- Drawing two sets of bits that share no pixel, one after the other, is drawing both. -/
theorem Canvas.Draws.trans {c d e : Canvas} {b b' : Nat → Nat → Bool} (h : c.Draws d b) (h' : d.Draws e b')
    (hdis : ∀ px py, b px py = true → b' px py = false) : c.Draws e (fun px py => b px py || b' px py) := by
  constructor
  · intro px py hx hy
    rw [h'.1 px py hx hy, h.1 px py hx hy]
    have := hdis px py
    cases hb : b px py <;> cases hb' : b' px py <;> simp_all
  · rw [h'.2, h.2]
    constructor
    · rintro ((hh | ⟨px, py, hx, hy, hp, hb⟩) | ⟨px, py, hx, hy, hp, hb⟩)
      · exact .inl hh
      · exact .inr ⟨px, py, hx, hy, hp, by simp [hb]⟩
      · refine .inr ⟨px, py, hx, hy, ?_, by simp [hb]⟩
        rw [h.1 px py hx hy] at hp
        cases hq : b px py with
        | true => have := hdis px py hq; simp_all
        | false => simpa [hq] using hp
    · rintro (hh | ⟨px, py, hx, hy, hp, hb⟩)
      · exact .inl (.inl hh)
      · cases hq : b px py with
        | true => exact .inl (.inr ⟨px, py, hx, hy, hp, hq⟩)
        | false =>
          refine .inr ⟨px, py, hx, hy, ?_, by simpa [hq] using hb⟩
          rw [h.1 px py hx hy, hq]; simpa using hp

/-- The bits drawn may be described in any way that agrees with them. -/
theorem Canvas.Draws.congr {c d : Canvas} {b b' : Nat → Nat → Bool} (h : c.Draws d b)
    (he : ∀ px py, b px py = b' px py) : c.Draws d b' := by
  have : b = b' := funext fun px => funext fun py => he px py
  exact this ▸ h

/-- Distinct pixels of the screen have distinct indexes below 2048 (R130). -/
theorem pixelIndex_inj {px py qx qy : Nat} (hp : px ≤ 63) (hq : qx ≤ 63) :
    pixelIndex px py = pixelIndex qx qy ↔ px = qx ∧ py = qy := by
  unfold pixelIndex; omega

/-- One XOR-write draws its pixel if that is on the screen, and nothing otherwise (R132 to R134). -/
theorem Canvas.plot_draws (c : Canvas) (px py : Nat) :
    c.Draws (c.plot px py) (fun qx qy => decide (qx = px) && decide (qy = py)) := by
  unfold Canvas.plot
  by_cases h : px ≤ 63 ∧ py ≤ 31
  · rw [if_pos h]
    constructor
    · intro qx qy hx hy
      have hlt : pixelIndex qx qy < 2048 := by unfold pixelIndex; omega
      have hbit : (1#2048 <<< pixelIndex px py).getLsbD (pixelIndex qx qy) = (decide (qx = px) && decide (qy = py)) := by
        rw [BitVec.getLsbD_shiftLeft]
        have hi := pixelIndex_inj (py := py) (qy := qy) h.1 hx
        by_cases e : pixelIndex px py = pixelIndex qx qy
        · obtain ⟨rfl, rfl⟩ := hi.mp e
          simp [hlt]
        · have hne : ¬ (qx = px ∧ qy = py) := fun ⟨a, b⟩ => e (hi.mpr ⟨a.symm, b.symm⟩)
          have hne' : (decide (qx = px) && decide (qy = py)) = false := by
            simpa [Bool.and_eq_true, decide_eq_true_eq] using hne
          rw [hne']
          by_cases hl : pixelIndex qx qy < pixelIndex px py
          · simp [hl]
          · have : pixelIndex qx qy - pixelIndex px py ≠ 0 := by omega
            simp [BitVec.getLsbD_one, this]
      simp only [Canvas.pixel, BitVec.getLsbD_xor, hbit]
    · simp only [Bool.or_eq_true, Bool.and_eq_true, decide_eq_true_eq]
      constructor
      · rintro (hh | hh)
        · exact .inl hh
        · exact .inr ⟨px, py, h.1, h.2, hh, rfl, rfl⟩
      · rintro (hh | ⟨qx, qy, -, -, hp, rfl, rfl⟩)
        · exact .inl hh
        · exact .inr hp
  · rw [if_neg h]
    constructor
    · intro qx qy hx hy
      have : (decide (qx = px) && decide (qy = py)) = false := by
        rw [Bool.eq_false_iff]; simp only [ne_eq, Bool.and_eq_true, decide_eq_true_eq]
        rintro ⟨rfl, rfl⟩; exact h ⟨hx, hy⟩
      simp [this]
    · constructor
      · exact fun hh => .inl hh
      · rintro (hh | ⟨qx, qy, hx, hy, -, hb⟩)
        · exact hh
        · simp only [Bool.and_eq_true, decide_eq_true_eq] at hb
          obtain ⟨rfl, rfl⟩ := hb
          exact absurd ⟨hx, hy⟩ h

/-- The bits of the listed columns of a sprite row drawn from column `x0` at row `py`. -/
def colBits (row : Byte) (x0 py : Nat) (cols : List Nat) (qx qy : Nat) : Bool :=
  decide (qy = py) && cols.any (fun col => decide (qx = x0 + col) && row.getLsbD (7 - col))

/-- Drawing columns draws their bits (R135). -/
theorem Canvas.drawCols_draws (row : Byte) (x0 py : Nat) (cols : List Nat) (hn : cols.Nodup) (c : Canvas) :
    c.Draws (Canvas.drawCols row x0 py c cols) (colBits row x0 py cols) := by
  induction cols generalizing c with
  | nil => exact Canvas.draws_nothing c _ (by simp [colBits])
  | cons col cols ih =>
    obtain ⟨hcol, hcols⟩ := List.nodup_cons.mp hn
    rw [Canvas.drawCols]
    cases hb : row.getLsbD (7 - col) with
    | false =>
      rw [if_neg Bool.false_ne_true]
      exact (ih hcols c).congr (fun qx qy => by simp [colBits, hb])
    | true =>
      rw [if_pos rfl]
      refine ((Canvas.plot_draws c (x0 + col) py).trans (ih hcols _) (fun qx qy h => ?_)).congr (fun qx qy => ?_)
      · simp only [Bool.and_eq_true, decide_eq_true_eq] at h
        obtain ⟨rfl, rfl⟩ := h
        simp only [colBits, Bool.and_eq_false_iff]
        right
        rw [List.any_eq_false]
        intro col' hc'
        have : ¬ x0 + col = x0 + col' := fun e => hcol (by rwa [show col = col' by omega])
        simp only [this, decide_false, Bool.false_and, Bool.false_eq_true, not_false_eq_true]
      · simp only [colBits, List.any_cons, hb, Bool.and_true]
        cases decide (qy = py) <;> cases decide (qx = x0 + col) <;> simp

/-- The bits of sprite rows drawn from column `x0` and row `py` on: column `col` of a row shows bit `7 - col`. -/
def rowBits (rows : List Byte) (x0 py qx qy : Nat) : Bool :=
  decide (x0 ≤ qx) && decide (qx < x0 + 8) && decide (py ≤ qy) && (rows.getD (qy - py) 0#8).getLsbD (7 - (qx - x0))

/-- The eight columns of one row are bits 7 to 0 of its byte (R135). -/
theorem colBits_spriteCols (row : Byte) (x0 py qx qy : Nat) :
    colBits row x0 py spriteCols qx qy =
      (decide (qy = py) && (decide (x0 ≤ qx) && decide (qx < x0 + 8) && row.getLsbD (7 - (qx - x0)))) := by
  unfold colBits
  congr 1
  by_cases h : x0 ≤ qx ∧ qx < x0 + 8
  · obtain ⟨k, rfl⟩ : ∃ k, qx = x0 + k := ⟨qx - x0, by omega⟩
    have hk : k < 8 := by omega
    simp only [spriteCols, List.any_cons, List.any_nil, Nat.add_left_cancel_iff]
    interval_cases k <;> simp
  · have : (decide (x0 ≤ qx) && decide (qx < x0 + 8)) = false := by
      simpa [Bool.and_eq_true, decide_eq_true_eq] using h
    rw [this, Bool.false_and, List.any_eq_false]
    intro col hc
    have hc8 : col < 8 := by
      simp only [spriteCols, List.mem_cons, List.not_mem_nil, or_false] at hc; omega
    have : ¬ qx = x0 + col := by omega
    simp [this]

/-- Drawing rows draws their bits: everything a sprite does to the screen and the accumulator (R132 to R135). -/
theorem Canvas.drawRows_draws (x0 : Nat) (rows : List Byte) (py : Nat) (c : Canvas) :
    c.Draws (Canvas.drawRows x0 c py rows) (rowBits rows x0 py) := by
  induction rows generalizing c py with
  | nil => exact Canvas.draws_nothing c _ (by simp [rowBits])
  | cons row rows ih =>
    rw [Canvas.drawRows]
    refine ((Canvas.drawCols_draws row x0 py spriteCols (by decide) c).trans (ih (py + 1) _) (fun qx qy h => ?_)).congr
      (fun qx qy => ?_)
    · rw [colBits_spriteCols] at h
      simp only [Bool.and_eq_true, decide_eq_true_eq] at h
      have : ¬ py + 1 ≤ qy := by omega
      simp [rowBits, this]
    · rw [colBits_spriteCols]
      unfold rowBits
      rcases Nat.lt_trichotomy qy py with h | h | h
      · have h1 : ¬ qy = py := by omega
        have h2 : ¬ py ≤ qy := by omega
        have h3 : ¬ py + 1 ≤ qy := by omega
        simp [h1, h2, h3]
      · subst h
        have h3 : ¬ qy + 1 ≤ qy := by omega
        simp
      · have h1 : ¬ qy = py := by omega
        have h2 : py ≤ qy := by omega
        have h3 : py + 1 ≤ qy := by omega
        obtain ⟨k, hk⟩ : ∃ k, qy - py = k + 1 := ⟨qy - py - 1, by omega⟩
        have hk' : qy - (py + 1) = k := by omega
        simp [h1, h2, h3, hk, hk']

end Sys2Proof.Machine
end

