-- ==== Sys2Proof/Laws/Memory.lean ====
section
/-! SUPPORT. The laws of memory: a read after a write, blocks of writes, the canonical form. -/

namespace Sys2Proof.Machine

variable (p : Platform)

/-! ## Reads after writes -/

/-- An erased address reads as unlisted, every other one as before. -/
theorem Memory.read_erase (m : Memory) (a b : Nat) :
    Memory.read p (Memory.erase m a) b = if b = a then Memory.unlisted p a else Memory.read p m b := by
  induction m with
  | nil => simp only [Memory.erase, List.filter_nil, Memory.read]; split <;> simp_all
  | cons c m ih =>
    obtain ⟨d, v⟩ := c
    unfold Memory.erase at ih ⊢
    by_cases hd : d = a
    · subst hd
      rw [List.filter_cons_of_neg (by simp), ih]
      by_cases e : b = d
      · rw [if_pos e, if_pos e]
      · rw [if_neg e, if_neg e, Memory.read, if_neg e]
    · rw [List.filter_cons_of_pos (by simpa using hd), Memory.read, ih, Memory.read]
      by_cases e : b = d
      · rw [if_pos e, if_pos e, if_neg (by omega)]
      · rw [if_neg e, if_neg e]

/-- An inserted entry is what its address reads as, every other address reads as before. -/
theorem Memory.read_insert (m : Memory) (a b : Nat) (x : Byte) :
    Memory.read p (Memory.insert m a x) b = if b = a then x else Memory.read p m b := by
  induction m with
  | nil => rfl
  | cons c m ih =>
    obtain ⟨d, v⟩ := c
    rw [Memory.insert]
    split
    · next h =>
      rw [Memory.read, ih, Memory.read]
      by_cases e : b = d
      · rw [if_pos e, if_pos e, if_neg (by omega)]
      · rw [if_neg e, if_neg e]
    · rfl

/-- A read after a write: the byte written at its address, the old byte elsewhere. It holds of any memory. -/
theorem Memory.read_write (m : Memory) (a b : Nat) (x : Byte) :
    Memory.read p (Memory.write p m a x) b = if b = a then x else Memory.read p m b := by
  unfold Memory.write
  split
  · next h => rw [Memory.read_erase, h]
  · rw [Memory.read_insert, Memory.read_erase]
    by_cases e : b = a
    · rw [if_pos e, if_pos e]
    · rw [if_neg e, if_neg e, if_neg e]

/-- A read after a block of writes: the byte of the block inside it, the old byte outside. -/
theorem Memory.read_writeBytes (xs : List Byte) (m : Memory) (a b : Nat) :
    Memory.read p (Memory.writeBytes p m a xs) b =
      if a ≤ b then xs.getD (b - a) (Memory.read p m b) else Memory.read p m b := by
  induction xs generalizing m a with
  | nil => simp [Memory.writeBytes]
  | cons x xs ih =>
    rw [Memory.writeBytes, ih, Memory.read_write]
    rcases Nat.lt_trichotomy b a with h | h | h
    · rw [if_neg (by omega), if_neg (by omega), if_neg (by omega)]
    · subst h
      rw [if_neg (by omega), if_pos rfl, if_pos (by omega), Nat.sub_self]; rfl
    · obtain ⟨k, hk⟩ : ∃ k, b - a = k + 1 := ⟨b - a - 1, by omega⟩
      rw [if_pos (by omega), if_neg (by omega), if_pos (by omega), hk, show b - (a + 1) = k by omega]; rfl

/-- A byte read after a block store, in the terms of the state. -/
theorem State.readByte_storeBytes (s : State) (a : Nat) (xs : List Byte) (b : Nat) :
    (s.storeBytes a xs).readByte b = if a ≤ b then xs.getD (b - a) (s.readByte b) else s.readByte b :=
  Memory.read_writeBytes s.platform xs s.mem a b

/-- Inside the block, a byte read after a block store is the byte stored. -/
theorem State.readByte_storeBytes_inside (s : State) (a : Nat) (xs : List Byte) (j : Nat) (h : j < xs.length) :
    (s.storeBytes a xs).readByte (a + j) = xs[j] := by
  rw [State.readByte_storeBytes, if_pos (by omega), Nat.add_sub_cancel_left, List.getD_eq_getElem _ _ h]

/-- Outside the block, a byte read after a block store is the old byte. -/
theorem State.readByte_storeBytes_outside (s : State) (a : Nat) (xs : List Byte) (b : Nat)
    (h : b < a ∨ a + xs.length ≤ b) : (s.storeBytes a xs).readByte b = s.readByte b := by
  rw [State.readByte_storeBytes]
  split
  · rw [List.getD_eq_default _ _ (by omega)]
  · rfl

/-! ## Canonical form -/

/-- What a canonical memory with a first entry says of it. -/
theorem Memory.wfFrom_cons {lo a : Nat} {v : Byte} {m : Memory} :
    Memory.wfFrom p lo ((a, v) :: m) = true ↔
      lo ≤ a ∧ a < 4096 ∧ v ≠ Memory.unlisted p a ∧ Memory.wfFrom p (a + 1) m = true := by
  rw [Memory.wfFrom, Bool.and_eq_true, Bool.and_eq_true, Bool.and_eq_true, decide_eq_true_eq, decide_eq_true_eq,
    decide_eq_true_eq, Memory.size]
  simp only [and_assoc]

/-- A canonical memory from an address on is canonical from any lower one. -/
theorem Memory.wfFrom_mono {lo lo' : Nat} {m : Memory} (h : lo' ≤ lo) (hm : Memory.wfFrom p lo m = true) :
    Memory.wfFrom p lo' m = true := by
  cases m with
  | nil => rfl
  | cons c m =>
    obtain ⟨h1, h2⟩ := (Memory.wfFrom_cons p).mp hm
    exact (Memory.wfFrom_cons p).mpr ⟨by omega, h2⟩

/-- Below its first address a canonical memory lists nothing. -/
theorem Memory.read_below {lo a : Nat} {m : Memory} (hm : Memory.wfFrom p lo m = true) (ha : a < lo) :
    Memory.read p m a = Memory.unlisted p a := by
  induction m generalizing lo with
  | nil => rfl
  | cons c m ih =>
    obtain ⟨-, -, -, h2⟩ := (Memory.wfFrom_cons p).mp hm
    rw [Memory.read, if_neg (by have := (Memory.wfFrom_cons p).mp hm; omega), ih h2 (by
      have := (Memory.wfFrom_cons p).mp hm; omega)]

/-- Erasing keeps the canonical form. -/
theorem Memory.wfFrom_erase {lo : Nat} {m : Memory} (a : Nat) (hm : Memory.wfFrom p lo m = true) :
    Memory.wfFrom p lo (Memory.erase m a) = true := by
  induction m generalizing lo with
  | nil => rfl
  | cons c m ih =>
    obtain ⟨b, v⟩ := c
    obtain ⟨h1, h2, h3, h4⟩ := (Memory.wfFrom_cons p).mp hm
    unfold Memory.erase at ih ⊢
    by_cases hb : b = a
    · rw [List.filter_cons_of_neg (by simpa using hb)]
      exact ih (Memory.wfFrom_mono p (by omega) h4)
    · rw [List.filter_cons_of_pos (by simpa using hb)]
      exact (Memory.wfFrom_cons p).mpr ⟨h1, h2, h3, ih h4⟩

/-- Inserting an entry whose address is not listed, is in range and whose byte differs from the unlisted one keeps the
canonical form. -/
theorem Memory.wfFrom_insert {lo a : Nat} {m : Memory} {x : Byte} (hm : Memory.wfFrom p lo m = true) (hlo : lo ≤ a)
    (ha : a < 4096) (hx : x ≠ Memory.unlisted p a) (hnew : ∀ c ∈ m, c.1 ≠ a) :
    Memory.wfFrom p lo (Memory.insert m a x) = true := by
  induction m generalizing lo with
  | nil => exact (Memory.wfFrom_cons p).mpr ⟨hlo, ha, hx, rfl⟩
  | cons c m ih =>
    obtain ⟨b, v⟩ := c
    obtain ⟨h1, h2, h3, h4⟩ := (Memory.wfFrom_cons p).mp hm
    have hb : b ≠ a := hnew (b, v) (by simp)
    rw [Memory.insert]
    split
    · exact (Memory.wfFrom_cons p).mpr ⟨h1, h2, h3, ih h4 (by omega) (fun c hc => hnew c (by simp [hc]))⟩
    · exact (Memory.wfFrom_cons p).mpr ⟨hlo, ha, hx, (Memory.wfFrom_cons p).mpr ⟨by omega, h2, h3, h4⟩⟩

/-- A write in range keeps the canonical form. -/
theorem Memory.wf_write {a : Nat} {m : Memory} (x : Byte) (hm : Memory.wf p m = true) (ha : a < 4096) :
    Memory.wf p (Memory.write p m a x) = true := by
  unfold Memory.write
  split
  · exact Memory.wfFrom_erase p a hm
  · next hx =>
    refine Memory.wfFrom_insert p (Memory.wfFrom_erase p a hm) (Nat.zero_le _) ha hx (fun c hc => ?_)
    simpa [Memory.erase] using (List.mem_filter.mp hc).2

/-- A block of writes in range keeps the canonical form. -/
theorem Memory.wf_writeBytes {m : Memory} (xs : List Byte) {a : Nat} (hm : Memory.wf p m = true)
    (ha : a + xs.length ≤ 4096) : Memory.wf p (Memory.writeBytes p m a xs) = true := by
  induction xs generalizing m a with
  | nil => exact hm
  | cons x xs ih =>
    simp only [List.length_cons] at ha
    exact ih (Memory.wf_write p x hm (by omega)) (by omega)

/-- Memory with nothing listed is canonical. -/
@[simp] theorem Memory.wf_nil : Memory.wf p [] = true := rfl

/-- The memory of the state right after reset is canonical. -/
theorem State.reset_wf : Memory.wf State.reset.platform State.reset.mem = true := rfl

/-! ## The font -/

/-- Byte `j` of the font is what its address reads as unlisted (R182). -/
theorem Memory.unlisted_font (j : Nat) (h : j < 80) :
    Memory.unlisted p (p.fontBase.toNat + j) = p.fontData[j] := by
  simp [Memory.unlisted, h]

/-- Outside the font an unlisted address reads as 0 (R182). -/
theorem Memory.unlisted_zero (a : Nat) (h : a < p.fontBase.toNat ∨ p.fontBase.toNat + 80 ≤ a) :
    Memory.unlisted p a = 0#8 := by
  unfold Memory.unlisted
  split
  · rw [List.getD_eq_default _ _ (by simp; omega)]
  · rfl

end Sys2Proof.Machine
end

