-- ==== Sys2Proof/Laws/PerInstr.lean ====
section
/-! SUPPORT. Statements about every instruction, one lemma per constructor. Family RowMatch: an instruction's word is an
instance of its row of spec/30_encoding.md R65, `(iw & mask) = match` (R62). -/

namespace Sys2Proof.Laws

/-- Fixed bits and fields joined: the AND of two joined words is taken part by part. -/
theorem and_join {m n : Nat} (a c : BitVec m) (b d : BitVec n) : (a ++ b) &&& (c ++ d) = (a &&& c) ++ (b &&& d) :=
  BitVec.and_append

/-- A field under a mask of zeros is zero. -/
theorem and_zeros {n : Nat} (a : BitVec n) : a &&& 0#n = 0#n := BitVec.and_zero

/-- Format NNN: the mask keeps the primary opcode. -/
theorem mask_nnn (op : BitVec 4) (nnn : Addr) : (op ++ nnn : BitVec 16) &&& 0xF000#16 = op ++ 0#12 := by
  rw [show (0xF000#16) = (0xF#4 ++ 0#12 : BitVec 16) from rfl, and_join, and_zeros,
    show (0xF#4) = BitVec.allOnes 4 from rfl, BitVec.and_allOnes]

/-- Format XNN: the mask keeps the primary opcode. -/
theorem mask_xnn (op : BitVec 4) (x : Reg) (nn : Byte) :
    (op ++ x ++ nn : BitVec 16) &&& 0xF000#16 = op ++ 0#4 ++ 0#8 := by
  rw [show (0xF000#16) = (0xF#4 ++ 0#4 ++ 0#8 : BitVec 16) from rfl, and_join, and_join, and_zeros, and_zeros,
    show (0xF#4) = BitVec.allOnes 4 from rfl, BitVec.and_allOnes]

/-- Format XY: the mask keeps the primary opcode and the sub-opcode. -/
theorem mask_xy (op sub : BitVec 4) (x y : Reg) :
    (op ++ x ++ y ++ sub : BitVec 16) &&& 0xF00F#16 = op ++ 0#4 ++ 0#4 ++ sub := by
  rw [show (0xF00F#16) = (0xF#4 ++ 0#4 ++ 0#4 ++ 0xF#4 : BitVec 16) from rfl, and_join, and_join, and_join, and_zeros,
    and_zeros, show (0xF#4) = BitVec.allOnes 4 from rfl, BitVec.and_allOnes, BitVec.and_allOnes]

/-- Format XYN: the mask keeps the primary opcode. -/
theorem mask_xyn (op : BitVec 4) (x y : Reg) (n : Nibble) :
    (op ++ x ++ y ++ n : BitVec 16) &&& 0xF000#16 = op ++ 0#4 ++ 0#4 ++ 0#4 := by
  rw [show (0xF000#16) = (0xF#4 ++ 0#4 ++ 0#4 ++ 0#4 : BitVec 16) from rfl, and_join, and_join, and_join, and_zeros,
    and_zeros, and_zeros, show (0xF#4) = BitVec.allOnes 4 from rfl, BitVec.and_allOnes]

/-- Format XS: the mask keeps the primary opcode and the 8-bit sub-opcode. -/
theorem mask_xs (op : BitVec 4) (x : Reg) (sub : Byte) :
    (op ++ x ++ sub : BitVec 16) &&& 0xF0FF#16 = op ++ 0#4 ++ sub := by
  rw [show (0xF0FF#16) = (0xF#4 ++ 0#4 ++ 0xFF#8 : BitVec 16) from rfl, and_join, and_join, and_zeros,
    show (0xF#4) = BitVec.allOnes 4 from rfl, show (0xFF#8) = BitVec.allOnes 8 from rfl, BitVec.and_allOnes,
    BitVec.and_allOnes]

/-- An instruction's word under its row's mask is its row's fixed bits (R62, R65). -/
def RowMatch.Statement (i : Instr) : Prop := encode i &&& rowMask i = rowMatch i

theorem RowMatch.cls : RowMatch.Statement .cls :=
  by unfold RowMatch.Statement; decide

theorem RowMatch.ret : RowMatch.Statement .ret :=
  by unfold RowMatch.Statement; decide

theorem RowMatch.jp (nnn : Addr) : RowMatch.Statement (.jp nnn) :=
  mask_nnn _ _

theorem RowMatch.call (nnn : Addr) : RowMatch.Statement (.call nnn) :=
  mask_nnn _ _

theorem RowMatch.seImm (x : Reg) (nn : Byte) : RowMatch.Statement (.seImm x nn) :=
  mask_xnn _ _ _

theorem RowMatch.sneImm (x : Reg) (nn : Byte) : RowMatch.Statement (.sneImm x nn) :=
  mask_xnn _ _ _

theorem RowMatch.seReg (x : Reg) (y : Reg) : RowMatch.Statement (.seReg x y) :=
  mask_xy _ _ _ _

theorem RowMatch.ldImm (x : Reg) (nn : Byte) : RowMatch.Statement (.ldImm x nn) :=
  mask_xnn _ _ _

theorem RowMatch.addImm (x : Reg) (nn : Byte) : RowMatch.Statement (.addImm x nn) :=
  mask_xnn _ _ _

theorem RowMatch.ldReg (x : Reg) (y : Reg) : RowMatch.Statement (.ldReg x y) :=
  mask_xy _ _ _ _

theorem RowMatch.orReg (x : Reg) (y : Reg) : RowMatch.Statement (.orReg x y) :=
  mask_xy _ _ _ _

theorem RowMatch.andReg (x : Reg) (y : Reg) : RowMatch.Statement (.andReg x y) :=
  mask_xy _ _ _ _

theorem RowMatch.xorReg (x : Reg) (y : Reg) : RowMatch.Statement (.xorReg x y) :=
  mask_xy _ _ _ _

theorem RowMatch.addReg (x : Reg) (y : Reg) : RowMatch.Statement (.addReg x y) :=
  mask_xy _ _ _ _

theorem RowMatch.sub (x : Reg) (y : Reg) : RowMatch.Statement (.sub x y) :=
  mask_xy _ _ _ _

theorem RowMatch.shr (x : Reg) (y : Reg) : RowMatch.Statement (.shr x y) :=
  mask_xy _ _ _ _

theorem RowMatch.subn (x : Reg) (y : Reg) : RowMatch.Statement (.subn x y) :=
  mask_xy _ _ _ _

theorem RowMatch.shl (x : Reg) (y : Reg) : RowMatch.Statement (.shl x y) :=
  mask_xy _ _ _ _

theorem RowMatch.sneReg (x : Reg) (y : Reg) : RowMatch.Statement (.sneReg x y) :=
  mask_xy _ _ _ _

theorem RowMatch.ldI (nnn : Addr) : RowMatch.Statement (.ldI nnn) :=
  mask_nnn _ _

theorem RowMatch.jpV0 (nnn : Addr) : RowMatch.Statement (.jpV0 nnn) :=
  mask_nnn _ _

theorem RowMatch.rnd (x : Reg) (nn : Byte) : RowMatch.Statement (.rnd x nn) :=
  mask_xnn _ _ _

theorem RowMatch.drw (x : Reg) (y : Reg) (n : Nibble) : RowMatch.Statement (.drw x y n) :=
  mask_xyn _ _ _ _

theorem RowMatch.skp (x : Reg) : RowMatch.Statement (.skp x) :=
  mask_xs _ _ _

theorem RowMatch.sknp (x : Reg) : RowMatch.Statement (.sknp x) :=
  mask_xs _ _ _

theorem RowMatch.ldVxDt (x : Reg) : RowMatch.Statement (.ldVxDt x) :=
  mask_xs _ _ _

theorem RowMatch.ldVxK (x : Reg) : RowMatch.Statement (.ldVxK x) :=
  mask_xs _ _ _

theorem RowMatch.ldDtVx (x : Reg) : RowMatch.Statement (.ldDtVx x) :=
  mask_xs _ _ _

theorem RowMatch.ldStVx (x : Reg) : RowMatch.Statement (.ldStVx x) :=
  mask_xs _ _ _

theorem RowMatch.addI (x : Reg) : RowMatch.Statement (.addI x) :=
  mask_xs _ _ _

theorem RowMatch.ldF (x : Reg) : RowMatch.Statement (.ldF x) :=
  mask_xs _ _ _

theorem RowMatch.ldB (x : Reg) : RowMatch.Statement (.ldB x) :=
  mask_xs _ _ _

theorem RowMatch.storeRegs (x : Reg) : RowMatch.Statement (.storeRegs x) :=
  mask_xs _ _ _

theorem RowMatch.loadRegs (x : Reg) : RowMatch.Statement (.loadRegs x) :=
  mask_xs _ _ _

end Sys2Proof.Laws
end

