-- ==== Sys2Proof/Laws/Step.lean ====
section
/-! SUPPORT. What a step, an EXEC, a return, a call and a draw can do, each said once. -/

namespace Sys2Proof.Machine

variable (s : State)

/-- Everything an EXEC can do (R81, R82, R66, R88). -/
theorem State.execEvent_cases :
    (s.run = .halted ∧ s.execEvent = .next s) ∨
    (s.run = .running ∧ s.fetchable = false ∧
      s.execEvent = .next (s.raise (.outOfBounds .fetch s.pc none s.pc))) ∨
    (s.run = .running ∧ s.fetchable = true ∧ decodeWord s.fetchWord = none ∧
      s.execEvent = .next (s.raise (.unknownOpcode s.fetchWord s.pc))) ∨
    (∃ i, s.run = .running ∧ s.fetchable = true ∧ decodeWord s.fetchWord = some i ∧ s.execEvent = exec i s) := by
  unfold State.execEvent
  cases hr : s.run with
  | halted => exact .inl ⟨rfl, by simp⟩
  | running =>
    cases hf : s.fetchable with
    | false => exact .inr (.inl ⟨rfl, rfl, by simp⟩)
    | true =>
      cases hd : decodeWord s.fetchWord with
      | none => exact .inr (.inr (.inl ⟨rfl, rfl, rfl, by simp⟩))
      | some i => exact .inr (.inr (.inr ⟨i, rfl, rfl, rfl, by simp⟩))

/-- Everything a step can do: the next event of the host, on the state without it (R80). -/
theorem step_cases :
    (s.nextEvent = .exec ∧ step s = s.takeEvent.execEvent) ∨
    (∃ k, s.nextEvent = .tick k ∧ step s = .next (s.takeEvent.tick k)) ∨
    (∃ p prog k, s.nextEvent = .reset p prog k ∧ step s = s.takeEvent.resetEvent p prog k) := by
  unfold step
  cases s.nextEvent with
  | exec => exact .inl ⟨rfl, rfl⟩
  | tick k => exact .inr (.inl ⟨k, rfl, rfl⟩)
  | reset p prog k => exact .inr (.inr ⟨p, prog, k, rfl, rfl⟩)

/-- A run of one step more goes on from the next state. -/
theorem run_succ_of_next (n : Nat) (t : State) (h : step s = .next t) :
    Host.Core.run Sys2Proof.core (n + 1) s = Host.Core.run Sys2Proof.core n t := by
  have h' : Sys2Proof.core.step s = .next t := h
  simp only [Host.Core.run, h']

/-- With no event waiting, the state without the event taken is the state, and the event is EXEC. -/
theorem State.takeEvent_of_empty (h : s.pending = []) : s.takeEvent = s ∧ s.nextEvent = .exec := by
  constructor
  · cases s; simp only [State.takeEvent] at h ⊢; subst h; rfl
  · simp [State.nextEvent, h]

/-- Everything RET can do (R90, R14). -/
theorem execRet_cases :
    (s.sp = 0#8 ∧ execRet s = .next (s.raise (.outOfBounds .stackUnderflow 0#16 (some 0x00EE#16) s.pc))) ∨
    (1 ≤ s.sp.toNat ∧ s.sp.toNat ≤ 16 ∧ ∃ h : s.sp.toNat - 1 < 16,
      execRet s = .next { s with sp := s.sp - 1#8, pc := s.stack[s.sp.toNat - 1] }) ∨
    (16 < s.sp.toNat ∧ execRet s = .fault (.stackPointer s.sp)) := by
  unfold execRet
  by_cases h0 : s.sp = 0#8
  · exact .inl ⟨h0, by rw [if_pos h0]; rfl⟩
  · have h1 : s.sp.toNat ≠ 0 := fun e => h0 (BitVec.eq_of_toNat_eq (by simpa using e))
    by_cases h16 : s.sp.toNat ≤ 16
    · exact .inr (.inl ⟨by omega, h16, by omega, by rw [if_neg h0, dif_pos h16]; rfl⟩)
    · exact .inr (.inr ⟨by omega, by rw [if_neg h0, dif_neg h16]⟩)

/-- Everything CALL can do (R92, R14). -/
theorem execCall_cases (nnn : Addr) :
    (s.sp = 16#8 ∧
      execCall nnn s = .next (s.raise (.outOfBounds .stackOverflow 16#16 (some (0x2#4 ++ nnn)) s.pc))) ∨
    (∃ h : s.sp.toNat < 16, execCall nnn s = .next { s with
      stack := s.stack.set s.sp.toNat (s.pc + 2#16), sp := s.sp + 1#8, pc := zextAddr nnn }) ∨
    (16 < s.sp.toNat ∧ execCall nnn s = .fault (.stackPointer s.sp)) := by
  unfold execCall
  by_cases h0 : s.sp = 16#8
  · exact .inl ⟨h0, by rw [if_pos h0]; rfl⟩
  · have h1 : s.sp.toNat ≠ 16 := fun e => h0 (BitVec.eq_of_toNat_eq (by simpa using e))
    by_cases h16 : s.sp.toNat < 16
    · exact .inr (.inl ⟨h16, by rw [if_neg h0, dif_pos h16]; rfl⟩)
    · exact .inr (.inr ⟨by omega, by rw [if_neg h0, dif_neg h16]⟩)

/-- A sprite's bits, read from memory, are the bits its rows draw (R132). -/
theorem State.rowBits_readBytes (x0 y0 n qx qy : Nat) :
    rowBits (s.readBytes s.i.toNat n) x0 y0 qx qy =
      (decide (x0 ≤ qx) && decide (qx < x0 + 8) && decide (y0 ≤ qy) && decide (qy < y0 + n) &&
        (s.readByte (s.i.toNat + (qy - y0))).getLsbD (7 - (qx - x0))) := by
  unfold rowBits
  by_cases h : qy - y0 < n
  · rw [List.getD_eq_getElem _ _ (by simpa using h), State.readBytes_getElem]
    by_cases hy : y0 ≤ qy
    · have h1 : qy < y0 + n := by omega
      simp [hy, h1]
    · simp [hy]
  · rw [List.getD_eq_default _ _ (by simp; omega)]
    by_cases hy : y0 ≤ qy
    · have h1 : ¬ qy < y0 + n := by omega
      simp [h1]
    · simp [hy]

/-- Everything a draw in range does: the sprite's bits are XORed onto the screen, `VF` tells of a collision, `pc` advances,
nothing else changes (R132, R133). -/
theorem State.drawSprite_spec (x y : Reg) (n : Nibble) :
    ∃ c : Canvas,
      Canvas.Draws { disp := s.disp, hit := false } c
        (rowBits (s.readBytes s.i.toNat n.toNat) (s.reg x).toNat (s.reg y).toNat) ∧
      s.drawSprite x y n = { s.setReg State.vf (flagByte c.hit) with disp := c.disp, pc := s.pc + 2#16 } :=
  ⟨_, Canvas.drawRows_draws _ _ _ _, rfl⟩

/-- A program's load: the reset values with the program's bytes written (R180). -/
theorem State.load_eq (p : Platform) (program : List Byte) (k : KeySet) :
    s.load p program k =
      { State.boot p k s.draws s.pending with mem := Memory.writeBytes p [] 0x200 program } := rfl

end Sys2Proof.Machine
end

