-- ==== Sys2Proof/Tests/Slice0.lean ====
section
/-! SUPPORT. The model's own tests. Every expected value is from spec/95_test_vectors.md (the id stands in the comment) or
from the worked example of the rule named; none is the model's own answer. -/

namespace Sys2Proof.Tests

open Sys2Proof Sys2Proof.Machine

set_option maxRecDepth 4000

/-! ## Helpers -/

/-- The start state of the vectors: reset, no key held, as spec/95_test_vectors.md section 0 says. -/
def start : State := { State.reset with keys := 0#16 }

/-- The start state with some registers set. -/
def withRegs (s : State) : List (Reg × Byte) → State
  | [] => s
  | (x, b) :: l => withRegs (s.setReg x b) l

/-- One step on a word placed at `pc` ends in a next state that passes the check. -/
def runs (s : State) (w : Nat) (check : State → Bool) : Bool :=
  match step (s.withFetchWord 16 w) with
  | .next t => check t
  | .fault _ => false
  | .refused _ => false

/-- The fault outputs with the numbers of R153: halted, code, cause, address, word, pc. -/
def halts (t : State) (code : BitVec 2) (cause : Option (BitVec 3)) (addr iw pc : Option Word) : Bool :=
  t.halted && t.faultCode == code && t.faultCause == cause && t.faultAddr == addr && t.faultIw == iw && t.faultPc == pc

/-! ## WellFormed: a platform and a program the checks refuse (R182, R183). An instruction's fields have exactly their
widths, so no term of Instr is ill formed. -/

theorem test_wellFormed_default_platform : Config.defaultPlatform.wellFormed = true := by decide
theorem test_wellFormed_highest_font : ({ Config.defaultPlatform with fontBase := 0x1B0#16 } : Platform).wellFormed = true := by
  decide
theorem test_wellFormed_refuses_font_in_program :
    ({ Config.defaultPlatform with fontBase := 0x1B1#16 } : Platform).wellFormed = false := by decide
theorem test_programFits_3584 : Config.programFits (List.replicate 3584 0xFF#8) = true :=
  decide_eq_true (by rw [List.length_replicate]; decide)
theorem test_programFits_refuses_3585 : Config.programFits (List.replicate 3585 0xFF#8) = false :=
  decide_eq_false (by rw [List.length_replicate]; decide)
theorem test_instr_wellFormed : (Instr.drw 15#4 15#4 15#4).WellFormed := by
  unfold Instr.WellFormed; decide

/-! ## Decoding: one word per constructor, written out from R65 -/

theorem test_decode_cls : decodeTableWord 16 0b0000000011100000 = some .cls := by decide
theorem test_decode_ret : decodeTableWord 16 0b0000000011101110 = some .ret := by decide
theorem test_decode_jp : decodeTableWord 16 0b0001001000110100 = some (.jp 0x234#12) := by decide
theorem test_decode_call : decodeTableWord 16 0b0010001100000001 = some (.call 0x301#12) := by decide
theorem test_decode_seImm : decodeTableWord 16 0b0011010000010010 = some (.seImm 4#4 0x12#8) := by decide
theorem test_decode_sneImm : decodeTableWord 16 0b0100101010000001 = some (.sneImm 10#4 0x81#8) := by decide
theorem test_decode_seReg : decodeTableWord 16 0b0101000100100000 = some (.seReg 1#4 2#4) := by decide
theorem test_decode_ldImm : decodeTableWord 16 0b0110101001000010 = some (.ldImm 10#4 0x42#8) := by decide
theorem test_decode_addImm : decodeTableWord 16 0b0111000100000010 = some (.addImm 1#4 2#8) := by decide
theorem test_decode_ldReg : decodeTableWord 16 0b1000000100100000 = some (.ldReg 1#4 2#4) := by decide
theorem test_decode_orReg : decodeTableWord 16 0b1000000100100001 = some (.orReg 1#4 2#4) := by decide
theorem test_decode_andReg : decodeTableWord 16 0b1000000100100010 = some (.andReg 1#4 2#4) := by decide
theorem test_decode_xorReg : decodeTableWord 16 0b1000000100100011 = some (.xorReg 1#4 2#4) := by decide
theorem test_decode_addReg : decodeTableWord 16 0b1000101010110100 = some (.addReg 10#4 11#4) := by decide
theorem test_decode_sub : decodeTableWord 16 0b1000000100100101 = some (.sub 1#4 2#4) := by decide
theorem test_decode_shr : decodeTableWord 16 0b1000000111110110 = some (.shr 1#4 15#4) := by decide
theorem test_decode_subn : decodeTableWord 16 0b1000000100100111 = some (.subn 1#4 2#4) := by decide
theorem test_decode_shl : decodeTableWord 16 0b1000101010111110 = some (.shl 10#4 11#4) := by decide
theorem test_decode_sneReg : decodeTableWord 16 0b1001000100100000 = some (.sneReg 1#4 2#4) := by decide
theorem test_decode_ldI : decodeTableWord 16 0b1010001011110000 = some (.ldI 0x2F0#12) := by decide
theorem test_decode_jpV0 : decodeTableWord 16 0b1011001100000000 = some (.jpV0 0x300#12) := by decide
theorem test_decode_rnd : decodeTableWord 16 0b1100001100001111 = some (.rnd 3#4 0x0F#8) := by decide
theorem test_decode_drw : decodeTableWord 16 0b1101000000010101 = some (.drw 0#4 1#4 5#4) := by decide
theorem test_decode_skp : decodeTableWord 16 0b1110000110011110 = some (.skp 1#4) := by decide
theorem test_decode_sknp : decodeTableWord 16 0b1110000110100001 = some (.sknp 1#4) := by decide
theorem test_decode_ldVxDt : decodeTableWord 16 0b1111010100000111 = some (.ldVxDt 5#4) := by decide
theorem test_decode_ldVxK : decodeTableWord 16 0b1111001100001010 = some (.ldVxK 3#4) := by decide
theorem test_decode_ldDtVx : decodeTableWord 16 0b1111010100010101 = some (.ldDtVx 5#4) := by decide
theorem test_decode_ldStVx : decodeTableWord 16 0b1111010100011000 = some (.ldStVx 5#4) := by decide
theorem test_decode_addI : decodeTableWord 16 0b1111001000011110 = some (.addI 2#4) := by decide
theorem test_decode_ldF : decodeTableWord 16 0b1111001100101001 = some (.ldF 3#4) := by decide
theorem test_decode_ldB : decodeTableWord 16 0b1111010000110011 = some (.ldB 4#4) := by decide
theorem test_decode_storeRegs : decodeTableWord 16 0b1111001001010101 = some (.storeRegs 2#4) := by decide
theorem test_decode_loadRegs : decodeTableWord 16 0b1111111101100101 = some (.loadRegs 15#4) := by decide

/-- Words of no row: DE8, DE10, UN1, UN4, UN12, UN13, UN19, UN24 (section 2.1). -/
theorem test_decode_unknown :
    decodeWord 0x0EE0#16 = none ∧ decodeWord 0x5121#16 = none ∧ decodeWord 0x0000#16 = none ∧
    decodeWord 0x00EF#16 = none ∧ decodeWord 0x9AB3#16 = none ∧ decodeWord 0x8128#16 = none ∧
    decodeWord 0xE19F#16 = none ∧ decodeWord 0xF375#16 = none := by decide

/-- Bytes are rejected by name. -/
theorem test_decode_rejects :
    decode [0x00#8] = .rejected .truncated ∧ decode [0x0E#8, 0xE0#8] = .rejected (.unknownOpcode 0x0EE0#16) ∧
    decode [0x12#8, 0x34#8, 0x56#8] = .ok (.jp 0x234#12) [0x56#8] := by decide

/-! ## Control transfer (section 2.2) -/

/-- CT3. -/
theorem test_ret_full :
    runs { start with pc := 0x300#16, sp := 16#8, stack := start.stack.set 15 0x0ABC#16 } 0x00EE
      (fun t => t.pc == 0xABC#16 && t.sp == 15#8) = true := by decide
/-- CT2. -/
theorem test_ret_underflow :
    runs { start with pc := 0x300#16 } 0x00EE
      (fun t => halts t 2#2 (some 4#3) (some 0#16) (some 0x00EE#16) (some 0x300#16) && t.pc == 0x300#16) = true := by
  decide
/-- CT5: a jump to itself changes nothing. -/
theorem test_jp_self : runs start 0x1200 (fun t => decide (t = start.withFetchWord 16 0x1200) && t.finished) = true := by
  decide
/-- CT9: the 16th nested call is legal. -/
theorem test_call_sixteenth :
    runs { start with sp := 15#8 } 0x2300
      (fun t => t.pc == 0x300#16 && t.sp == 16#8 && t.stack[15] == 0x0202#16) = true := by decide
/-- CT10. -/
theorem test_call_overflow :
    runs { start with sp := 16#8 } 0x2300
      (fun t => halts t 2#2 (some 3#3) (some 16#16) (some 0x2300#16) (some 0x200#16) && t.sp == 16#8) = true := by
  decide
/-- CT12 and CT13. -/
theorem test_seImm :
    runs (withRegs { start with pc := 0x210#16 } [(10#4, 0x42#8)]) 0x3A42 (fun t => t.pc == 0x214#16) = true ∧
    runs (withRegs { start with pc := 0x210#16 } [(10#4, 0x41#8)]) 0x3A42 (fun t => t.pc == 0x212#16) = true := by decide
/-- CT16 and CT17. -/
theorem test_sneImm :
    runs start 0x4001 (fun t => t.pc == 0x204#16) = true ∧
    runs (withRegs start [(0#4, 1#8)]) 0x4001 (fun t => t.pc == 0x202#16) = true := by decide
/-- CT18 and CT19. -/
theorem test_seReg :
    runs (withRegs start [(1#4, 7#8), (2#4, 7#8)]) 0x5120 (fun t => t.pc == 0x204#16) = true ∧
    runs (withRegs start [(1#4, 7#8), (2#4, 8#8)]) 0x5120 (fun t => t.pc == 0x202#16) = true := by decide
/-- CT21 and CT23. -/
theorem test_sneReg :
    runs (withRegs start [(1#4, 7#8), (2#4, 8#8)]) 0x9120 (fun t => t.pc == 0x204#16) = true ∧
    runs (withRegs start [(3#4, 0x99#8)]) 0x9330 (fun t => t.pc == 0x202#16) = true := by decide
/-- CT26: no wrap to 12 bits. CT25: always `V0`. -/
theorem test_jpV0 :
    runs (withRegs start [(0#4, 0xFF#8)]) 0xBFFF (fun t => t.pc == 0x10FE#16) = true ∧
    runs (withRegs start [(0#4, 3#8), (3#4, 0x10#8)]) 0xB300 (fun t => t.pc == 0x303#16) = true := by decide

/-! ## ALU (section 2.3) -/

/-- AL2. -/
theorem test_ldImm : runs start 0x6F01 (fun t => t.reg 15#4 == 1#8 && t.pc == 0x202#16) = true := by decide
/-- AL4 and AL7. -/
theorem test_addImm :
    runs (withRegs start [(0#4, 0xFF#8)]) 0x7001 (fun t => t.reg 0#4 == 0#8 && t.reg 15#4 == 0#8) = true ∧
    runs (withRegs start [(15#4, 0xFF#8)]) 0x7F01 (fun t => t.reg 15#4 == 0#8) = true := by decide
/-- AL9. -/
theorem test_ldReg :
    runs (withRegs start [(1#4, 1#8), (2#4, 0xAB#8)]) 0x8120 (fun t => t.reg 1#4 == 0xAB#8 && t.reg 2#4 == 0xAB#8) = true := by
  decide
/-- AL12, AL13, AL14: `VF` stays. -/
theorem test_logic :
    runs (withRegs start [(1#4, 0xF0#8), (2#4, 0x0F#8), (15#4, 1#8)]) 0x8121
      (fun t => t.reg 1#4 == 0xFF#8 && t.reg 15#4 == 1#8) = true ∧
    runs (withRegs start [(1#4, 0xF0#8), (2#4, 0x3C#8), (15#4, 1#8)]) 0x8122
      (fun t => t.reg 1#4 == 0x30#8 && t.reg 15#4 == 1#8) = true ∧
    runs (withRegs start [(1#4, 0xF0#8), (2#4, 0x3C#8), (15#4, 1#8)]) 0x8123
      (fun t => t.reg 1#4 == 0xCC#8 && t.reg 15#4 == 1#8) = true := by decide
/-- AL16 (S3). -/
theorem test_addReg_carry :
    runs (withRegs start [(1#4, 0xFF#8), (2#4, 1#8)]) 0x8124 (fun t => t.reg 1#4 == 0#8 && t.reg 15#4 == 1#8) = true := by
  decide
/-- AL22 and AL24. -/
theorem test_addReg_vf :
    runs (withRegs start [(15#4, 1#8), (2#4, 2#8)]) 0x8F24 (fun t => t.reg 15#4 == 0#8) = true ∧
    runs (withRegs start [(15#4, 0x80#8)]) 0x8FF4 (fun t => t.reg 15#4 == 1#8) = true := by decide
/-- AL26 (S4) and AL27. -/
theorem test_sub :
    runs (withRegs start [(1#4, 3#8), (2#4, 5#8)]) 0x8125 (fun t => t.reg 1#4 == 0xFE#8 && t.reg 15#4 == 0#8) = true ∧
    runs (withRegs start [(1#4, 7#8), (2#4, 7#8)]) 0x8125 (fun t => t.reg 1#4 == 0#8 && t.reg 15#4 == 1#8) = true := by
  decide
/-- AL30 and AL32. -/
theorem test_sub_vf :
    runs (withRegs start [(15#4, 5#8), (2#4, 3#8)]) 0x8F25 (fun t => t.reg 15#4 == 1#8) = true ∧
    runs (withRegs start [(1#4, 5#8), (15#4, 3#8)]) 0x81F5 (fun t => t.reg 1#4 == 2#8 && t.reg 15#4 == 1#8) = true := by
  decide
/-- AL33 (S5): `Vy` is not used. -/
theorem test_shr :
    runs (withRegs start [(1#4, 3#8), (2#4, 0xFF#8)]) 0x8126
      (fun t => t.reg 1#4 == 1#8 && t.reg 15#4 == 1#8 && t.reg 2#4 == 0xFF#8) = true := by decide
/-- AL37. -/
theorem test_shr_vf : runs (withRegs start [(15#4, 3#8)]) 0x8F26 (fun t => t.reg 15#4 == 0#8) = true := by decide
/-- AL40 and AL43. -/
theorem test_subn :
    runs (withRegs start [(1#4, 5#8), (2#4, 3#8)]) 0x8127 (fun t => t.reg 1#4 == 0xFE#8 && t.reg 15#4 == 0#8) = true ∧
    runs (withRegs start [(1#4, 3#8), (15#4, 5#8)]) 0x81F7 (fun t => t.reg 1#4 == 2#8 && t.reg 15#4 == 1#8) = true := by
  decide
/-- AL44. -/
theorem test_shl :
    runs (withRegs start [(1#4, 0x81#8), (2#4, 0xFF#8)]) 0x812E
      (fun t => t.reg 1#4 == 2#8 && t.reg 15#4 == 1#8 && t.reg 2#4 == 0xFF#8) = true := by decide
/-- AL47 and AL48. -/
theorem test_shl_vf :
    runs (withRegs start [(15#4, 0x81#8)]) 0x8F2E (fun t => t.reg 15#4 == 2#8) = true ∧
    runs (withRegs start [(15#4, 0x41#8)]) 0x8F2E (fun t => t.reg 15#4 == 0#8) = true := by decide

/-! ## Index register and memory (section 2.4) -/

/-- IM2. -/
theorem test_ldI : runs { start with i := 0x1234#16 } 0xAFFF (fun t => t.i == 0x0FFF#16) = true := by decide
/-- IM5 and IM6. -/
theorem test_addI :
    runs (withRegs { start with i := 0x0FFF#16 } [(3#4, 1#8)]) 0xF31E
      (fun t => t.i == 0x1000#16 && t.reg 15#4 == 0#8) = true ∧
    runs (withRegs { start with i := 0xFFFF#16 } [(3#4, 2#8)]) 0xF31E (fun t => t.i == 1#16) = true := by decide
/-- IM9 and IM12. -/
theorem test_ldF :
    runs (withRegs start [(0#4, 0x0A#8)]) 0xF029 (fun t => t.i == 0x0082#16) = true ∧
    runs (withRegs start [(0#4, 0xFF#8)]) 0xF029 (fun t => t.i == 0x054B#16) = true := by decide
/-- IM18: the last three bytes. -/
theorem test_ldB :
    runs (withRegs { start with i := 0xFFD#16 } [(4#4, 123#8)]) 0xF433
      (fun t => t.readByte 0xFFD == 1#8 && t.readByte 0xFFE == 2#8 && t.readByte 0xFFF == 3#8) = true := by decide
/-- IM19: nothing is written. IM21: no wrap. -/
theorem test_ldB_halts :
    runs (withRegs { start with i := 0xFFE#16 } [(4#4, 123#8)]) 0xF433
      (fun t => halts t 2#2 (some 2#3) (some 0x1000#16) (some 0xF433#16) (some 0x200#16) &&
        t.readByte 0xFFE == 0#8) = true ∧
    runs (withRegs { start with i := 0xFFFF#16 } [(4#4, 123#8)]) 0xF433
      (fun t => halts t 2#2 (some 2#3) (some 0xFFFF#16) (some 0xF433#16) (some 0x200#16)) = true := by decide
/-- IM23. -/
theorem test_storeRegs :
    runs (withRegs { start with i := 0x300#16 } [(0#4, 0x11#8), (1#4, 0x22#8), (2#4, 0x33#8), (3#4, 0x44#8)]) 0xF255
      (fun t => t.readByte 0x300 == 0x11#8 && t.readByte 0x302 == 0x33#8 && t.readByte 0x303 == 0#8 &&
        t.i == 0x300#16) = true := by decide
/-- IM25: no partial store. -/
theorem test_storeRegs_halts :
    runs (withRegs { start with i := 0xFFF#16 } [(0#4, 0xAB#8), (1#4, 0xCD#8)]) 0xF155
      (fun t => halts t 2#2 (some 2#3) (some 0x1000#16) (some 0xF155#16) (some 0x200#16) &&
        t.readByte 0xFFF == 0#8) = true := by decide
/-- IM31. -/
theorem test_loadRegs :
    runs (withRegs { start with i := 0x300#16, mem := [(0x300, 0xDE#8), (0x301, 0xAD#8), (0x302, 0xBE#8), (0x303, 0xEF#8)] }
        [(3#4, 0x99#8)]) 0xF265
      (fun t => t.reg 0#4 == 0xDE#8 && t.reg 1#4 == 0xAD#8 && t.reg 2#4 == 0xBE#8 && t.reg 3#4 == 0x99#8) = true := by
  decide
/-- IM33 and IM36. -/
theorem test_loadRegs_edges :
    runs { start with i := 0xFFF#16, mem := [(0xFFF, 0x5A#8)] } 0xF165
      (fun t => halts t 2#2 (some 1#3) (some 0x1000#16) (some 0xF165#16) (some 0x200#16) && t.reg 0#4 == 0#8) = true ∧
    runs { start with i := 0x50#16 } 0xF065 (fun t => t.reg 0#4 == 0xF0#8) = true := by decide

/-! ## Display (section 2.5) -/

/-- DS1: `VF` stays. -/
theorem test_cls :
    runs (withRegs { start with disp := 1#2048 ||| (1#2048 <<< 2047) } [(15#4, 7#8)]) 0x00E0
      (fun t => t.disp == 0#2048 && t.reg 15#4 == 7#8) = true := by decide
/-- DS7: one pixel set, one erased. -/
theorem test_drw_collision :
    runs { start with i := 0x300#16, mem := [(0x300, 0xC0#8)], disp := 1#2048 <<< 1 } 0xD011
      (fun t => t.disp == 1#2048 && t.reg 15#4 == 1#8) = true := by decide
/-- DS11: the row below the screen is dropped. DS12: the origin is not reduced. -/
theorem test_drw_clips :
    runs (withRegs { start with i := 0x300#16, mem := [(0x300, 0x80#8), (0x301, 0x80#8), (0x302, 0x80#8)] } [(1#4, 30#8)])
      0xD013 (fun t => t.disp == (1#2048 <<< 1920) ||| (1#2048 <<< 1984)) = true ∧
    runs (withRegs { start with i := 0x300#16, mem := [(0x300, 0xFF#8)] } [(0#4, 64#8)]) 0xD011
      (fun t => t.disp == 0#2048 && t.reg 15#4 == 0#8) = true := by decide

/-! ## Keys, timers, random (section 2.6) -/

/-- KT1 and KT2. -/
theorem test_skp :
    runs (withRegs { start with keys := 0x0080#16 } [(1#4, 7#8)]) 0xE19E (fun t => t.pc == 0x204#16) = true ∧
    runs (withRegs { start with keys := 0xFF7F#16 } [(1#4, 7#8)]) 0xE19E (fun t => t.pc == 0x202#16) = true := by decide
/-- KT5. -/
theorem test_skp_halts :
    runs (withRegs { start with keys := 0xFFFF#16 } [(1#4, 0x10#8)]) 0xE19E
      (fun t => halts t 2#2 (some 5#3) (some 0x10#16) (some 0xE19E#16) (some 0x200#16)) = true := by decide
/-- KT8 and KT9. -/
theorem test_sknp :
    runs (withRegs { start with keys := 0xFF7F#16 } [(1#4, 7#8)]) 0xE1A1 (fun t => t.pc == 0x204#16) = true ∧
    runs (withRegs { start with keys := 0x0080#16 } [(1#4, 0x17#8)]) 0xE1A1
      (fun t => halts t 2#2 (some 5#3) (some 0x17#16) (some 0xE1A1#16) (some 0x200#16)) = true := by decide
/-- KT11: the stall changes nothing. -/
theorem test_ldVxK_stalls :
    runs start 0xF30A (fun t => decide (t = start.withFetchWord 16 0xF30A)) = true := by decide
/-- KT13: the lowest of two held keys. -/
theorem test_ldVxK_lowest :
    runs { start with keys := 0x8100#16 } 0xF30A (fun t => t.reg 3#4 == 8#8 && t.pc == 0x202#16) = true := by decide
/-- KT17. -/
theorem test_ldVxDt :
    runs { start with dt := 0x2A#8 } 0xF307 (fun t => t.reg 3#4 == 0x2A#8 && t.dt == 0x2A#8) = true := by decide
/-- KT20. -/
theorem test_ldDtVx : runs (withRegs start [(3#4, 0x3C#8)]) 0xF315 (fun t => t.dt == 0x3C#8) = true := by decide
/-- KT22 and KT23. -/
theorem test_ldStVx :
    runs (withRegs start [(3#4, 5#8)]) 0xF318 (fun t => t.st == 5#8 && t.soundActive) = true ∧
    runs { start with st := 9#8 } 0xF318 (fun t => t.st == 0#8 && !t.soundActive) = true := by decide
/-- KT27: with mask 0 the result is 0 for every random byte. -/
theorem test_rnd_mask_zero (s : State) : ∃ t, exec (.rnd 3#4 0#8) s = .next t ∧ t.reg 3#4 = 0#8 := by
  refine ⟨_, rfl, ?_⟩
  show State.reg (s.setReg 3#4 (Config.rand s.draws &&& 0#8)) 3#4 = 0#8
  simp
/-- KT25: for the draw 0xA7 and the mask 0x0F the result is 0x07. -/
theorem test_rnd_mask (s : State) (h : Config.rand s.draws = 0xA7#8) :
    ∃ t, exec (.rnd 3#4 0x0F#8) s = .next t ∧ t.reg 3#4 = 0x07#8 := by
  refine ⟨_, rfl, ?_⟩
  show State.reg (s.setReg 3#4 (Config.rand s.draws &&& 0x0F#8)) 3#4 = 0x07#8
  simp [h]

/-! ## Events, fetch check, halted state (sections 2.7 to 2.10) -/

/-- TK4: TICK. -/
theorem test_tick :
    (match step { start with dt := 255#8, st := 1#8, keys := 0xAAAA#16, pending := [.tick 0#16] } with
      | .next t => t.dt == 254#8 && t.st == 0#8 && t.keys == 0#16 && !t.soundActive && t.pending == []
      | _ => false) = true := by decide
/-- TK7: TICK in HALTED. -/
theorem test_tick_halted :
    (match step { start with run := .halted, dt := 7#8, keys := 0xAAAA#16, pending := [.tick 0xFFFF#16] } with
      | .next t => t.dt == 7#8 && t.keys == 0xAAAA#16
      | _ => false) = true := by decide
/-- R88 and R163: in HALTED the host goes on to sample an active sound signal; in a running block the sample is taken after
the decrement, so with `ST` 1 it is not active and with `ST` 2 it is. -/
theorem test_handOff :
    ({ start with run := .halted, st := 1#8 } : State).handOff.soundActive = true ∧
    ({ start with st := 1#8 } : State).handOff.soundActive = false ∧
    ({ start with st := 2#8 } : State).handOff.soundActive = true := by decide
/-- FE2 and FE5: below the program area, and odd. -/
theorem test_fetch_check :
    (match step { start with pc := 0x1FE#16 } with
      | .next t => halts t 2#2 (some 0#3) (some 0x1FE#16) none (some 0x1FE#16) && t.pc == 0x1FE#16
      | _ => false) = true ∧
    (match step { start with pc := 0x201#16 } with
      | .next t => halts t 2#2 (some 0#3) (some 0x201#16) none (some 0x201#16)
      | _ => false) = true := by decide
/-- RS2: with no program the first step meets the unknown word 0. -/
theorem test_reset_first_step :
    (match step start with
      | .next t => halts t 3#2 none none (some 0#16) (some 0x200#16) && t.pc == 0x200#16
      | _ => false) = true := by decide
/-- PR2: decode comes before any operand check. -/
theorem test_priority :
    runs (withRegs start [(1#4, 0xFF#8)]) 0xE19F
      (fun t => halts t 3#2 none none (some 0xE19F#16) (some 0x200#16)) = true := by decide
/-- The RESET of RS1. -/
def smallReset : Event := .reset Config.defaultPlatform (some [0x12#8, 0x00#8, 0xAB#8, 0xCD#8]) 0#16
/-- RS1 and RS5: RESET of a halted machine. -/
theorem test_reset_event :
    (match step { { start with run := .halted, i := 7#16 } with pending := [smallReset] } with
      | .next t => t.readByte 0x200 == 0x12#8 && t.readByte 0x203 == 0xCD#8 && t.readByte 0x204 == 0#8 &&
          t.readByte 0x50 == 0xF0#8 && t.readByte 0x9F == 0x80#8 && t.readByte 0xA0 == 0#8 && t.i == 0#16 &&
          decide (t.run = .running)
      | _ => false) = true := by decide
/-- R183: a missing program. -/
theorem test_load_error :
    (match step { start with pending := [.reset Config.defaultPlatform none 0#16] } with
      | .fault (.loadError none) => true
      | _ => false) = true := by decide

/-! ## Witnesses: for every obligation with hypotheses, concrete values that meet them, at the boundary of each clause -/

/-- The highest font base R182 admits. -/
def highFont : Platform := { Config.defaultPlatform with fontBase := 0x1B0#16 }

/-- The largest program image of R183. -/
def fullProgram : List Byte := List.replicate 3584 0xFF#8

theorem fullProgram_length : fullProgram.length = 3584 := List.length_replicate

/-- A state with a word at `pc`. -/
def atPc (pc : Word) (w : Nat) : State := State.withFetchWord { start with pc := pc } 16 w

theorem witness_DecodeOfEncodeIsTheInstruction :
    (Instr.drw 15#4 15#4 15#4).WellFormed ∧ (Instr.ldI 0xFFF#12).WellFormed ∧ (Instr.rnd 0#4 0xFF#8).WellFormed := by
  unfold Instr.WellFormed; decide

theorem witness_EncodeOfDecodeIsTheWord :
    decodeWord 0xDFFF#16 = some (.drw 15#4 15#4 15#4) ∧ decodeWord 0x00E0#16 = some .cls := by decide

theorem witness_WordDecodesByItsRowAlone :
    0xF065#16 &&& rowMask (.loadRegs 0#4) = rowMatch (.loadRegs 0#4) ∧
    0xF065#16 &&& rowMask (.loadRegs 15#4) = rowMatch (.loadRegs 15#4) ∧
    decodeWord 0xF065#16 = some (.loadRegs 0#4) := by decide

/-- At both ends of the fetch range, with an EXEC queued and with nothing queued. -/
theorem witness_StepRunsTheDecodedInstruction :
    (let s := atPc 0x200#16 0x8124
     s.run = .running ∧ s.pc = 0x200#16 ∧ s.pc.toNat % 2 = 0 ∧ s.pending = [] ∧
       decode [s.readByte s.pc.toNat, s.readByte (s.pc.toNat + 1)] = .ok (.addReg 1#4 2#4) []) ∧
    (let s := { atPc 0xFFE#16 0x1202 with pending := [.exec, .tick 0#16] }
     s.run = .running ∧ s.pc = 0xFFE#16 ∧ s.pc.toNat % 2 = 0 ∧ s.nextEvent = .exec ∧
       decode [s.readByte s.pc.toNat, s.readByte (s.pc.toNat + 1)] = .ok (.jp 0x202#12) []) ∧
    (Instr.addReg 1#4 2#4).WellFormed ∧ (Instr.jp 0x202#12).WellFormed := by
  unfold Instr.WellFormed; decide

/-- The clauses at their boundaries: odd, just below 0x200, just above 0xFFE. -/
theorem witness_BadFetchAddressHalts :
    start.nextEvent = .exec ∧ start.run = .running ∧ (0x201#16 : Word).toNat % 2 = 1 ∧ (0x1FF#16 : Word).toNat < 0x200 ∧
    0xFFE < (0xFFF#16 : Word).toNat ∧ ({ start with pc := 0x1FF#16 } : State).nextEvent = .exec ∧
    ({ start with pc := 0xFFF#16 } : State).run = .running := by decide

theorem witness_UnknownWordHalts :
    (let s := start
     s.nextEvent = .exec ∧ s.run = .running ∧ s.pc = 0x200#16 ∧ decodeWord s.fetchWord = none) ∧
    (let s := atPc 0xFFE#16 0x5121
     s.nextEvent = .exec ∧ s.run = .running ∧ s.pc = 0xFFE#16 ∧ decodeWord s.fetchWord = none) := by decide

/-- A halted block with an EXEC and a TICK queued, and one with a RESET queued at both limits of R182 and R183. -/
theorem witness_HaltedBlockStaysUntilReset :
    (let s : State := { start with run := .halted, pending := [.exec, .tick 1#16] }
     s.run = .halted ∧ (∀ p prog k, Event.reset p prog k ∉ s.pending)) ∧
    (let s : State := { start with run := .halted, pending := [.reset highFont (some fullProgram) 0#16] }
     s.run = .halted ∧ s.nextEvent = .reset highFont (some fullProgram) 0#16 ∧ fullProgram.length ≤ 3584 ∧
       highFont.fontBase.toNat + 79 ≤ 0x1FF) :=
  ⟨⟨rfl, by simp⟩, rfl, rfl, by rw [fullProgram_length], by decide⟩

/-- Timers at 0 and at 1, running and halted. -/
theorem witness_TickEffect :
    (let s : State := { start with dt := 0#8, st := 1#8, pending := [.tick 0xFFFF#16] }
     s.nextEvent = .tick 0xFFFF#16 ∧ s.run = .running) ∧
    (let s : State := { start with run := .halted, pending := [.tick 0#16] }
     s.nextEvent = .tick 0#16 ∧ s.run = .halted) := by decide

theorem witness_SoundSignalAtTicks :
    start.run = .running ∧ 1 < ((withRegs start [(1#4, 2#8)]).reg 1#4).toNat ∧ ¬ 0 + 1 < ((withRegs start [(1#4, 1#8)]).reg 1#4).toNat := by
  decide

theorem witness_TimersReachZeroAndStay :
    ({ start with dt := 2#8 } : State).run = .running ∧ ([1#16, 2#16, 3#16] : List KeySet).length = 3 := by decide

/-- One slot, the least IPT, on a jump to itself. -/
theorem witness_OuterTickRunsSlotsThenTick :
    1 ≤ 1 ∧ ∃ t, State.execSlots 1 { atPc 0x200#16 0x1200 with pending := [] } = .next t := ⟨by decide, _, rfl⟩

/-- The empty and the largest program, the lowest and the highest font. -/
theorem witness_ResetLoadsTheImage :
    (let s : State := { start with pending := [.reset highFont (some fullProgram) 7#16] }
     s.nextEvent = .reset highFont (some fullProgram) 7#16 ∧ fullProgram.length ≤ 3584 ∧
       highFont.fontBase.toNat + 79 ≤ 0x1FF) ∧
    (let p : Platform := { highFont with fontBase := 0#16 }
     let s : State := { start with pending := [.reset p (some []) 7#16] }
     s.nextEvent = .reset p (some []) 7#16 ∧ ([] : List Byte).length ≤ 3584 ∧ p.fontBase.toNat + 79 ≤ 0x1FF) :=
  ⟨⟨rfl, by rw [fullProgram_length], by decide⟩, rfl, by decide, by decide⟩

theorem witness_OversizedProgramIsNotLoaded :
    (let s : State := { start with pending := [.reset highFont (some (0#8 :: fullProgram)) 0#16] }
     s.nextEvent = .reset highFont (some (0#8 :: fullProgram)) 0#16 ∧ 3584 < (0#8 :: fullProgram).length) ∧
    (let s : State := { start with pending := [.reset highFont none 0#16] }
     s.nextEvent = .reset highFont none 0#16) :=
  ⟨⟨rfl, by rw [List.length_cons, fullProgram_length]; decide⟩, rfl⟩

/-- The state right after reset meets the invariant, and its step answers a next state. -/
theorem reset_inv : State.reset.Inv :=
  ⟨by decide, fun _ _ h => absurd h (by simp [State.reset, State.boot]), by decide, rfl, by decide, by decide⟩

theorem witness_StepKeepsTheInvariant : State.reset.Inv ∧ ∃ t, step State.reset = .next t := ⟨reset_inv, _, rfl⟩

/-- A state of the invariant that goes on, and one that a RESET without a program stops. -/
theorem witness_OnlyABadResetStopsTheModel :
    State.reset.Inv ∧
    (let s : State := { State.reset with pending := [.reset highFont none 0#16] }
     s.Inv ∧ step s = .fault (.loadError none)) := ⟨reset_inv, reset_inv, rfl⟩

theorem witness_MemoriesThatReadAlikeAreEqual :
    Memory.wf Config.defaultPlatform [(0x050, 0#8), (0xFFF, 1#8)] = true := by decide

/-- One instruction with a register destination that completes, and one of each that stores: `Fx33` up to the last byte,
`Fx55` with all registers, `2nnn` into the last entry; with the addresses and entries next to those stored. -/
theorem witness_NoInstructionWritesBeyondItsRow :
    (∃ t, exec (.addReg 1#4 2#4) start = .next t ∧ t.run = start.run ∧ start.run = .running) ∧
    (let s : State := { start with i := 0xFFC#16 }
     (∃ t, exec (.ldB 1#4) s = .next t ∧ t.run = s.run ∧ s.run = .running) ∧
       0xFFB < s.i.toNat ∧ s.i.toNat + storeCount (.ldB 1#4) ≤ 0xFFF) ∧
    (let s : State := { start with i := 0xFEF#16 }
     (∃ t, exec (.storeRegs 15#4) s = .next t ∧ t.run = s.run ∧ s.run = .running) ∧
       0xFEE < s.i.toNat ∧ s.i.toNat + storeCount (.storeRegs 15#4) ≤ 0xFFF) ∧
    (let s : State := { start with sp := 15#8 }
     (∃ t, exec (.call 0#12) s = .next t ∧ t.run = s.run ∧ s.run = .running) ∧ storesEntry s (.call 0#12) ≠ some 14) := by
  refine ⟨⟨_, rfl, rfl, rfl⟩, ⟨⟨_, rfl, rfl, rfl⟩, ?_⟩, ⟨⟨_, rfl, rfl, rfl⟩, ?_⟩, ⟨_, rfl, rfl, rfl⟩, ?_⟩ <;> decide

theorem witness_FatalErrorsArePrecise :
    ∃ t, start.run = .running ∧ exec .ret start = .next t ∧ t.run = .halted := ⟨_, rfl, rfl, rfl⟩

/-- One instruction of each class of R85 that completes. -/
theorem witness_NextPcByClass :
    start.run = .running ∧
    (∃ t, exec .cls start = .next t ∧ t.run = .running) ∧ (∃ t, exec (.seImm 0#4 0#8) start = .next t ∧ t.run = .running) ∧
    (∃ t, exec (.ldVxK 0#4) start = .next t ∧ t.run = .running) ∧ (∃ t, exec (.jp 0#12) start = .next t ∧ t.run = .running) ∧
    (∃ t, exec (.jpV0 0xFFF#12) start = .next t ∧ t.run = .running) ∧
    (∃ t, exec .ret { start with sp := 16#8 } = .next t ∧ t.run = .running) :=
  ⟨rfl, ⟨_, rfl, rfl⟩, ⟨_, rfl, rfl⟩, ⟨_, rfl, rfl⟩, ⟨_, rfl, rfl⟩, ⟨_, rfl, rfl⟩, ⟨_, rfl, rfl⟩⟩

theorem witness_ReturnPopsTheLastEntry :
    (1 ≤ ({ start with sp := 1#8 } : State).sp.toNat ∧ ({ start with sp := 1#8 } : State).sp.toNat ≤ 16) ∧
    (1 ≤ ({ start with sp := 16#8 } : State).sp.toNat ∧ ({ start with sp := 16#8 } : State).sp.toNat ≤ 16) := by decide

theorem witness_ReturnOnEmptyStackHalts : start.sp = 0#8 := rfl

theorem witness_CallPushesTheNextAddress :
    start.sp.toNat ≤ 15 ∧ ({ start with sp := 15#8 } : State).sp.toNat ≤ 15 := by decide

theorem witness_CallOnFullStackHalts : ({ start with sp := 16#8 } : State).sp = 16#8 := rfl

theorem witness_CallThenReturnGoesOnAfterTheCall :
    start.sp.toNat ≤ 15 ∧ ({ start with sp := 15#8 } : State).sp.toNat ≤ 15 := by decide

/-- Each clause: a jump to itself, an odd target, a target just below the program area. -/
theorem witness_JumpResult :
    start.pc.toNat = (0x200#12 : Addr).toNat ∧ start.run = .running ∧ (0x201#12 : Addr).toNat % 2 = 1 ∧
    (0x1FE#12 : Addr).toNat < 0x200 := by decide

/-- Both clauses of each skip. -/
theorem witness_SkipOnImmediateResult :
    (start.reg 15#4).toNat = (0#8 : Byte).toNat ∧ (start.reg 0#4).toNat ≠ (0xFF#8 : Byte).toNat := by decide

theorem witness_SkipOnRegisterResult :
    (let s := withRegs start [(1#4, 7#8), (2#4, 7#8), (3#4, 0xFF#8)]
     (s.reg 1#4).toNat = (s.reg 2#4).toNat ∧ (s.reg 1#4).toNat ≠ (s.reg 3#4).toNat) ∧ (1#4 : Nibble) ≠ 0#4 := by decide

theorem witness_AddImmediateResult : (14#4 : Reg) ≠ State.vf ∧ (0#8 : Byte) = 0#8 ∧ (0xFF#8 : Byte) = 0xFF#8 := by decide

theorem witness_AddResult :
    (let s := withRegs start [(1#4, 0xFF#8), (2#4, 1#8), (3#4, 0#8)]
     (1#4 : Reg) ≠ State.vf ∧ (s.reg 1#4).toNat + (s.reg 2#4).toNat > 255 ∧
       ¬ (s.reg 1#4).toNat + (s.reg 3#4).toNat > 255) := by decide

theorem witness_SubtractResult :
    (let s := withRegs start [(1#4, 7#8), (2#4, 7#8), (3#4, 8#8)]
     (1#4 : Reg) ≠ State.vf ∧ (s.reg 1#4).toNat ≥ (s.reg 2#4).toNat ∧ ¬ (s.reg 1#4).toNat ≥ (s.reg 3#4).toNat) := by
  decide

/-- Both clauses: another register, and `VF` at 127 and 128. -/
theorem witness_ShiftResult :
    (0#4 : Reg) ≠ State.vf ∧ (15#4 : Reg) = State.vf ∧
    (withRegs start [(15#4, 0x80#8)]).reg State.vf = 0x80#8 ∧ (withRegs start [(15#4, 0x7F#8)]).reg State.vf = 0x7F#8 := by
  decide

theorem witness_AddressArithmeticResult : ({ start with platform := highFont } : State).platform.wellFormed = true := by
  decide

/-- The last glyph, the largest program, the highest font. -/
theorem witness_GlyphAddressFindsTheGlyph :
    fullProgram.length ≤ 3584 ∧ highFont.fontBase.toNat + 79 ≤ 0x1FF ∧ (15#8 : Byte).toNat ≤ 15 :=
  ⟨by rw [fullProgram_length], by decide, by decide⟩

theorem witness_DecimalDigitsResult : ({ start with i := 0xFFD#16 } : State).i.toNat + 2 ≤ 4095 := by decide

theorem witness_StoreRegistersResult :
    ({ start with i := 0xFF0#16 } : State).i.toNat + (15#4 : Reg).toNat ≤ 4095 ∧
    ({ start with i := 0xFFF#16 } : State).i.toNat + (0#4 : Reg).toNat ≤ 4095 := by decide

theorem witness_LoadRegistersResult :
    ({ start with i := 0xFF0#16 } : State).i.toNat + (15#4 : Reg).toNat ≤ 4095 ∧
    ({ start with i := 0xFFF#16 } : State).i.toNat + (0#4 : Reg).toNat ≤ 4095 := by decide

theorem witness_StoreThenLoadRestores :
    ({ start with i := 0xFF0#16 } : State).i.toNat + (15#4 : Reg).toNat ≤ 4095 := by decide

/-- Each clause one address too far, and with `I` at its highest value. -/
theorem witness_OutOfRangeAccessHalts :
    ({ start with i := 0xFFE#16 } : State).i.toNat + 2 > 4095 ∧
    ({ start with i := 0xFF1#16 } : State).i.toNat + (15#4 : Reg).toNat > 4095 ∧
    ({ start with i := 0xFFFF#16 } : State).i.toNat + (0#4 : Reg).toNat > 4095 ∧
    (15#4 : Nibble) ≠ 0#4 ∧ ({ start with i := 0xFF2#16 } : State).i.toNat + (15#4 : Nibble).toNat > 4096 := by decide

theorem witness_StoreIsSeenByTheNextFetch :
    (let s : State := { start with i := 0xFF0#16 }
     s.i.toNat + (15#4 : Reg).toNat ≤ 4095 ∧ (14#4 : Reg).toNat + 1 ≤ (15#4 : Reg).toNat ∧
       (0xFFE#16 : Word).toNat = s.i.toNat + (14#4 : Reg).toNat) ∧
    (let s : State := { start with i := 0xFFD#16 }
     s.i.toNat + 2 ≤ 4095 ∧ (0xFFD#16 : Word).toNat = s.i.toNat ∧ (0xFFE#16 : Word).toNat = s.i.toNat + 1) := by decide

/-- No row with `I` out of range, and a sprite that ends at the last byte. -/
theorem witness_DrawResult :
    (0#4 : Nibble) = 0#4 ∧ ({ start with i := 0xFF1#16 } : State).i.toNat + (15#4 : Nibble).toNat ≤ 4096 := by decide

theorem witness_DrawingTwiceRestoresTheDisplay :
    (14#4 : Reg) ≠ State.vf ∧ (0#4 : Reg) ≠ State.vf ∧
    ({ start with i := 0xFF1#16 } : State).i.toNat + (15#4 : Nibble).toNat ≤ 4096 := by decide

/-- Each clause at its boundary: column 64, row 32, no row. -/
theorem witness_OffScreenSpriteDrawsNothing :
    (let s := withRegs { start with i := 0xFF1#16 } [(1#4, 64#8), (2#4, 32#8)]
     s.i.toNat + (15#4 : Nibble).toNat ≤ 4096 ∧ 64 ≤ (s.reg 1#4).toNat ∧ 32 ≤ (s.reg 2#4).toNat ∧
       (0#4 : Nibble) = 0#4) := by decide

/-- The highest key, held and not held. -/
theorem witness_KeySkipResult :
    ((withRegs { start with keys := 0x8000#16 } [(1#4, 15#8)]).reg 1#4).toNat ≤ 15 ∧
    ({ start with keys := 0x8000#16 } : State).keys.getLsbD 15 = true ∧ start.keys.getLsbD 15 = false := by decide

theorem witness_KeyIndexAboveFifteenHalts :
    15 < ((withRegs start [(1#4, 16#8)]).reg 1#4).toNat ∧ 15 < ((withRegs start [(1#4, 0xFF#8)]).reg 1#4).toNat := by decide

/-- No key held, the highest key alone, the lowest key with all others. -/
theorem witness_KeyWaitResult :
    (∀ j, j < 16 → start.keys.getLsbD j = false) ∧
    (let s : State := { start with keys := 0x8000#16 }
     15 < 16 ∧ s.keys.getLsbD 15 = true ∧ ∀ j, j < 15 → s.keys.getLsbD j = false) ∧
    (let s : State := { start with keys := 0xFFFF#16 }
     0 < 16 ∧ s.keys.getLsbD 0 = true ∧ ∀ j, j < 0 → s.keys.getLsbD j = false) := by decide

theorem witness_RandomByteResult : (0x0F#8 : Byte).getLsbD 7 = false := by decide

end Sys2Proof.Tests
end

section
/-! PROOFS. The fetch (R45): the fetched word in numbers, and the fetch of a word just stored at `pc`. -/

namespace Sys2Proof

/-- Two bytes joined, as a number. -/
theorem wordOfBytes_toNat (hi lo : Byte) : (wordOfBytes hi lo).toNat = hi.toNat * 256 + lo.toNat := by
  rw [wordOfBytes, BitVec.toNat_append, ← Nat.shiftLeft_add_eq_or_of_lt lo.isLt, Nat.shiftLeft_eq]

end Sys2Proof

namespace Sys2Proof.Machine

/-- The fetch joins the two bytes at `pc`, whatever else was stored behind them. -/
theorem State.fetchWord_storeBytes_pc (s : State) (hi lo : Byte) (rest : List Byte) :
    (s.storeBytes s.pc.toNat (hi :: lo :: rest)).fetchWord = wordOfBytes hi lo := by
  have hhi : (s.storeBytes s.pc.toNat (hi :: lo :: rest)).readByte s.pc.toNat = hi :=
    s.readByte_storeBytes_inside s.pc.toNat (hi :: lo :: rest) 0 (by simp)
  have hlo : (s.storeBytes s.pc.toNat (hi :: lo :: rest)).readByte (s.pc.toNat + 1) = lo :=
    s.readByte_storeBytes_inside s.pc.toNat (hi :: lo :: rest) 1 (by simp)
  rw [State.fetchWord, State.storeBytes_pc, hhi, hlo]

/-- Settles O6: the fetched word is the join of the two bytes at `pc`, and the join is undone by taking its bytes. -/
theorem fetchIsBigEndian : Obligations.FetchIsBigEndian := by
  intro s w
  refine ⟨?number, ?high, ?low, ?stored, ?quoted⟩
  case number => exact wordOfBytes_toNat _ _
  case high => exact highByte_wordOfBytes _ _
  case low => exact lowByte_wordOfBytes _ _
  case stored => exact (s.fetchWord_storeBytes_pc _ _ []).trans (wordOfBytes_highByte_lowByte w)
  case quoted => exact (s.fetchWord_storeBytes_pc _ _ []).trans (by decide)

end Sys2Proof.Machine
end

section
/-! PROOFS. The skips on two registers (R95, R96): the words of primary opcodes 5 and 9, and what a skip leaves. -/

namespace Sys2Proof

/-- The word fetched from two bytes of two nibbles each is the join of the four nibbles (R45). -/
theorem wordOfBytes_nibbles (op : Nibble) (x y : Reg) (n : Nibble) :
    wordOfBytes (op ++ x) (y ++ n) = wordXyn op x y n := by
  rw [wordOfBytes, wordXyn, BitVec.append_assoc (x₁ := op ++ x)]
  rfl

/-- Primary opcode 5 is an instruction with the low nibble 0 alone (R65, R66). -/
theorem decodeWord_wordXyn_five (x y : Reg) (n : Nibble) :
    decodeWord (wordXyn 0x5#4 x y n) = if n = 0#4 then some (.seReg x y) else none := by
  simp [decodeWord]

/-- Primary opcode 9 is an instruction with the low nibble 0 alone (R65, R66). -/
theorem decodeWord_wordXyn_nine (x y : Reg) (n : Nibble) :
    decodeWord (wordXyn 0x9#4 x y n) = if n = 0#4 then some (.sneReg x y) else none := by
  simp [decodeWord]

/-- Two bytes whose four nibbles join to a word of no row are rejected with that word (R66). -/
theorem decode_nibbles_rejected {op : Nibble} {x y : Reg} {n : Nibble} (h : decodeWord (wordXyn op x y n) = none) :
    decode [op ++ x, y ++ n] = .rejected (.unknownOpcode (wordXyn op x y n)) := by
  simp only [decode, wordOfBytes_nibbles, h]

end Sys2Proof

namespace Sys2Proof.Machine

/-- A skip changes nothing but `pc`. -/
theorem State.skipIf_frame (s : State) (c : Bool) : State.Frame noReg [] s (s.skipIf c) := by
  simp [State.Frame]

/-- `5xy0` is a skip on equality (R95). -/
theorem exec_seReg (x y : Reg) (s : State) : exec (.seReg x y) s = .next (s.skipIf (s.reg x == s.reg y)) := rfl

/-- `9xy0` is a skip on inequality (R96). -/
theorem exec_sneReg (x y : Reg) (s : State) : exec (.sneReg x y) s = .next (s.skipIf (s.reg x != s.reg y)) := rfl

/-- Settles O34: a skip moves `pc` by 4 or by 2 as its condition says, and the low nibble alone decides whether a word of
primary opcode 5 or 9 is an instruction. -/
theorem skipOnRegisterResult : Obligations.SkipOnRegisterResult := by
  intro s x y
  refine ⟨?seWord, ?sneWord, fun n hn => ⟨?seUnknown, ?sneUnknown⟩,
    ⟨_, exec_seReg x y s, s.skipIf_frame _, ?seEqual, ?seUnequal, ?seSame⟩,
    ⟨_, exec_sneReg x y s, s.skipIf_frame _, ?sneUnequal, ?sneEqual, ?sneSame⟩⟩
  case seWord => exact (decodeWord_wordXyn_five x y 0#4).trans (if_pos rfl)
  case sneWord => exact (decodeWord_wordXyn_nine x y 0#4).trans (if_pos rfl)
  case seUnknown => exact decode_nibbles_rejected ((decodeWord_wordXyn_five x y n).trans (if_neg hn))
  case sneUnknown => exact decode_nibbles_rejected ((decodeWord_wordXyn_nine x y n).trans (if_neg hn))
  case seEqual => intro h; simp [BitVec.toNat_inj.mp h]
  case seUnequal => intro h; simp [BitVec.toNat_inj.not.mp h]
  case seSame => rintro rfl; simp
  case sneUnequal => intro h; simp [BitVec.toNat_inj.not.mp h]
  case sneEqual => intro h; simp [BitVec.toNat_inj.mp h]
  case sneSame => rintro rfl; simp

end Sys2Proof.Machine
end

section
/-! PROOFS. The register loads and the ALU without a flag (R101 to R106): the words of primary opcodes 6, 7 and 8, and what
one register write followed by `pc + 2` leaves. -/

namespace Sys2Proof

/-- Every word of primary opcode 6 is `6xnn` (R65). -/
theorem decodeWord_wordXnn_six (x : Reg) (nn : Byte) : decodeWord (wordXnn 0x6#4 x nn) = some (.ldImm x nn) := by
  simp [decodeWord]

/-- Every word of primary opcode 7 is `7xnn` (R65). -/
theorem decodeWord_wordXnn_seven (x : Reg) (nn : Byte) : decodeWord (wordXnn 0x7#4 x nn) = some (.addImm x nn) := by
  simp [decodeWord]

/-- A word of primary opcode 8 is read by its low nibble (R64, R112). -/
theorem decodeWord_wordXyn_eight (x y : Reg) (n : Nibble) : decodeWord (wordXyn 0x8#4 x y n) = decodeAlu x y n := by
  simp [decodeWord]

end Sys2Proof

namespace Sys2Proof.Machine

/-! ## One register write, then `pc + 2` -/

/-- It changes nothing but that register and `pc`. -/
theorem State.advance_setReg_frame (s : State) (x : Reg) (b : Byte) :
    State.Frame (onlyReg x) [] s (s.setReg x b).advance := by
  have hother : ∀ r, ¬ onlyReg x r → (s.setReg x b).reg r = s.reg r := fun r hr => s.reg_setReg_other b hr
  simpa [State.Frame] using hother

/-- `pc + 2` alone changes nothing but `pc`. -/
theorem State.advance_frame (s : State) : State.Frame noReg [] s s.advance := by
  simp [State.Frame]

/-- Writing a register the value it has changes nothing. -/
@[simp] theorem State.setReg_reg_self (s : State) (x : Reg) : s.setReg x (s.reg x) = s := by
  simp [State.setReg, State.reg]

/-! ## The meanings, by the value they write -/

/-- `6xnn` writes `nn` (R101). -/
theorem exec_ldImm (x : Reg) (nn : Byte) (s : State) : exec (.ldImm x nn) s = .next (s.setReg x nn).advance := rfl

/-- `7xnn` writes the sum with `nn` (R102). -/
theorem exec_addImm (x : Reg) (nn : Byte) (s : State) :
    exec (.addImm x nn) s = .next (s.setReg x (s.reg x + nn)).advance := rfl

/-- `8xy0` writes `Vy` (R103). -/
theorem exec_ldReg (x y : Reg) (s : State) : exec (.ldReg x y) s = .next (s.setReg x (s.reg y)).advance := rfl

/-- `8xy1` writes the OR (R104). -/
theorem exec_orReg (x y : Reg) (s : State) :
    exec (.orReg x y) s = .next (s.setReg x (s.reg x ||| s.reg y)).advance := rfl

/-- `8xy2` writes the AND (R105). -/
theorem exec_andReg (x y : Reg) (s : State) :
    exec (.andReg x y) s = .next (s.setReg x (s.reg x &&& s.reg y)).advance := rfl

/-- `8xy3` writes the XOR (R106). -/
theorem exec_xorReg (x y : Reg) (s : State) :
    exec (.xorReg x y) s = .next (s.setReg x (s.reg x ^^^ s.reg y)).advance := rfl

/-! ## The obligations -/

/-- Settles O35: each of the two is one register write, and a copy onto itself writes the value already there. -/
theorem loadAndCopyResult : Obligations.LoadAndCopyResult := by
  intro s x y nn
  refine ⟨decodeWord_wordXnn_six x nn, decodeWord_wordXyn_eight x y 0x0#4,
    ⟨_, exec_ldImm x nn s, ?loaded, rfl, s.advance_setReg_frame x nn⟩,
    ⟨_, exec_ldReg x y s, ?copied, rfl, s.advance_setReg_frame x _, ?onItself⟩⟩
  case loaded => simp
  case copied => simp
  case onItself =>
    rintro rfl
    rw [State.setReg_reg_self]
    exact s.advance_frame

/-- Settles O36: the sum of two bytes is modulo 256, adding 0 writes the value already there, and 0xFF is minus 1. -/
theorem addImmediateResult : Obligations.AddImmediateResult := by
  intro s x nn
  refine ⟨decodeWord_wordXnn_seven x nn, _, exec_addImm x nn s, ?sum, ?flagKept, ?addZero, ?addAllOnes, rfl,
    s.advance_setReg_frame x _⟩
  case sum => simp
  case flagKept => intro hx; simp [hx.symm]
  case addZero =>
    rintro rfl
    rw [BitVec.add_zero, State.setReg_reg_self]
    exact s.advance_frame
  case addAllOnes =>
    rintro rfl
    have hminus : s.reg x + 0xFF#8 = s.reg x - 1#8 := (BitVec.sub_eq_add_neg _ 1#8).symm
    exact ⟨by simp, by simp [hminus]⟩

/-- Settles O37: each of the three is one register write of a bitwise operation, and the operations on equal operands are
the operand twice and then zero. -/
theorem logicResult : Obligations.LogicResult := by
  intro s x y
  refine ⟨decodeWord_wordXyn_eight x y 0x1#4, decodeWord_wordXyn_eight x y 0x2#4, decodeWord_wordXyn_eight x y 0x3#4,
    ⟨_, exec_orReg x y s, ?orBits, ?orSame, rfl, s.advance_setReg_frame x _⟩,
    ⟨_, exec_andReg x y s, ?andBits, ?andSame, rfl, s.advance_setReg_frame x _⟩,
    ⟨_, exec_xorReg x y s, ?xorBits, ?xorSame, rfl, s.advance_setReg_frame x _⟩⟩
  case orBits => intro b; simp
  case orSame => rintro rfl; simp
  case andBits => intro b; simp
  case andSame => rintro rfl; simp
  case xorBits => intro b; simp
  case xorSame => rintro rfl; simp

end Sys2Proof.Machine
end

section
/-! PROOFS. The load of the address register (R120): the words of primary opcode A, and what a write of `I` followed by
`pc + 2` leaves. -/

namespace Sys2Proof

/-- Every word of primary opcode A is `Annn` (R65). -/
theorem decodeWord_wordNnn_ten (nnn : Addr) : decodeWord (wordNnn 0xA#4 nnn) = some (.ldI nnn) := by
  simp [decodeWord]

end Sys2Proof

namespace Sys2Proof.Machine

/-- A write of `I`, then `pc + 2`, changes nothing but `I` and `pc`. -/
theorem State.advance_setI_frame (s : State) (a : Word) : State.Frame noReg [.i] s { s with i := a }.advance := by
  have hregs : ∀ r, { s with i := a }.reg r = s.reg r := State.reg_congr rfl
  have hbytes : ∀ b, { s with i := a }.readByte b = s.readByte b := State.readByte_congr rfl rfl
  simp [State.Frame, hregs, hbytes]

/-- `Annn` writes the zero-extended `nnn` to `I` (R120). -/
theorem exec_ldI (nnn : Addr) (s : State) : exec (.ldI nnn) s = .next { s with i := zextAddr nnn }.advance := rfl

/-- Settles O41: zero extension keeps the number, and a 12-bit number is below 4096. -/
theorem loadAddressResult : Obligations.LoadAddressResult := by
  intro s nnn
  have hi : { s with i := zextAddr nnn }.advance.i.toNat = nnn.toNat := zextAddr_toNat nnn
  exact ⟨decodeWord_wordNnn_ten nnn, _, exec_ldI nnn s, hi, hi.trans_lt nnn.isLt, rfl, s.advance_setI_frame _⟩

end Sys2Proof.Machine
end

section
/-! PROOFS. The clearing of the display (R131): what a write of the display followed by `pc + 2` leaves, and that the
cleared display has no lit pixel. -/

namespace Sys2Proof.Machine

/-- A write of the display, then `pc + 2`, changes nothing but the display and `pc`. -/
theorem State.advance_setDisp_frame (s : State) (d : BitVec 2048) :
    State.Frame noReg [.disp] s { s with disp := d }.advance := by
  have hregs : ∀ r, { s with disp := d }.reg r = s.reg r := State.reg_congr rfl
  have hbytes : ∀ b, { s with disp := d }.readByte b = s.readByte b := State.readByte_congr rfl rfl
  simp [State.Frame, hregs, hbytes]

/-- A display of zeros shows no lit pixel. -/
theorem State.pixel_eq_false_of_disp_eq_zero {s : State} (h : s.disp = 0#2048) (px py : Nat) :
    s.pixel px py = false := by
  rw [State.pixel, h, BitVec.getLsbD_zero]

/-- `00E0` writes the display of zeros (R131). -/
theorem exec_cls (s : State) : exec .cls s = .next { s with disp := 0#2048 }.advance := rfl

/-- Settles O50: the whole instruction is one write of the display, so the pixels follow from a display of zeros and `VF`
from the untouched register file. -/
theorem clearScreenResult : Obligations.ClearScreenResult := by
  refine ⟨by decide, fun s => ?_⟩
  have hvf : { s with disp := 0#2048 }.advance.reg State.vf = s.reg State.vf := State.reg_congr rfl State.vf
  exact ⟨_, exec_cls s, fun px py _ _ => State.pixel_eq_false_of_disp_eq_zero rfl px py, rfl, hvf, rfl,
    s.advance_setDisp_frame _⟩

end Sys2Proof.Machine
end

section
/-! PROOFS. The TICK event and the sound signal (R161, R163): what a TICK of a running block leaves, the sound timer
after any number of TICKs, and what the host samples in one. -/

namespace Sys2Proof.Machine

/-! ## The TICK event -/

/-- A step whose event is TICK is the TICK of the state without that event (R80). -/
theorem step_tick {s : State} {k : KeySet} (h : s.nextEvent = .tick k) : step s = .next (s.takeEvent.tick k) := by
  rcases step_cases s with ⟨he, -⟩ | ⟨k', he, hstep⟩ | ⟨_, _, _, he, -⟩
  · cases h.symm.trans he
  · cases h.symm.trans he
    exact hstep
  · cases h.symm.trans he

/-- A TICK neither halts the block nor wakes it. -/
@[simp] theorem State.tick_run (s : State) (k : KeySet) : (s.tick k).run = s.run := by
  unfold State.tick
  split <;> rfl

/-- A TICK of a running block takes the sound timer down by 1 unless it is 0 (R161). -/
theorem State.tick_st_toNat {s : State} (h : s.run = .running) (k : KeySet) :
    (s.tick k).st.toNat = s.st.toNat - 1 := by
  rw [State.tick_running s k h, State.latchKeys_st, State.decrementTimers_st, countDown_toNat]

/-- TICKs neither halt the block nor wake it. -/
@[simp] theorem State.ticks_run (s : State) (ks : List KeySet) : (s.ticks ks).run = s.run := by
  induction ks generalizing s with
  | nil => rfl
  | cons k ks ih => rw [State.ticks, ih, State.tick_run]

/-- TICKs of a running block take the sound timer down by their number, and never below 0 (R161). -/
theorem State.ticks_st_toNat {s : State} (h : s.run = .running) (ks : List KeySet) :
    (s.ticks ks).st.toNat = s.st.toNat - ks.length := by
  induction ks generalizing s with
  | nil => rfl
  | cons k ks ih =>
    have hrun : (s.tick k).run = .running := (s.tick_run k).trans h
    rw [State.ticks, ih hrun, State.tick_st_toNat h, List.length_cons, Nat.sub_sub, Nat.add_comm]

/-! ## The sound signal and its samples -/

/-- The sound signal is active while the sound timer is above 0 (R163). -/
theorem State.soundActive_iff (s : State) : s.soundActive = true ↔ 0 < s.st.toNat := by
  rw [State.soundActive, bne_iff_ne, ne_eq, ← BitVec.toNat_inj]
  exact Nat.pos_iff_ne_zero.symm

/-- What the host samples in a TICK is the display as it is and the sound signal the TICK leaves (R136, R163). -/
theorem State.handOff_eq (s : State) (k : KeySet) :
    s.handOff = { disp := s.disp, soundActive := (s.tick k).soundActive } := by
  unfold State.handOff State.midTick State.tick
  split <;> rfl

/-- The sample in a TICK of a running block shows the sound signal while the sound timer is above 1: its decrement comes
first (R163, D26). -/
theorem State.handOff_soundActive_iff {s : State} (h : s.run = .running) :
    s.handOff.soundActive = true ↔ 1 < s.st.toNat := by
  rw [State.handOff_eq s s.keys, State.soundActive_iff, State.tick_st_toNat h, Nat.sub_pos_iff_lt]

/-- The sound signal is active for as many TICKs of a running block as the sound timer counts (R163). -/
theorem State.ticks_soundActive_iff {s : State} (h : s.run = .running) (ks : List KeySet) :
    (s.ticks ks).soundActive = true ↔ ks.length < s.st.toNat := by
  rw [State.soundActive_iff, State.ticks_st_toNat h, Nat.sub_pos_iff_lt]

/-- The samples in the TICKs of a running block show the sound signal one time less (R163, D26). -/
theorem State.ticks_handOff_soundActive_iff {s : State} (h : s.run = .running) (ks : List KeySet) :
    (s.ticks ks).handOff.soundActive = true ↔ ks.length + 1 < s.st.toNat := by
  have hrun : (s.ticks ks).run = .running := (s.ticks_run ks).trans h
  rw [State.handOff_soundActive_iff hrun, State.ticks_st_toNat h, Nat.lt_sub_iff_add_lt, Nat.add_comm]

/-- `Fx18` writes `Vx` to the sound timer (R145). -/
theorem exec_ldStVx (x : Reg) (s : State) : exec (.ldStVx x) s = .next { s with st := s.reg x }.advance := rfl

/-! ## The obligations -/

/-- Settles O13: `Fx18` leaves a running block whose sound timer counts `v`, which the TICKs then take down. -/
theorem soundSignalAtTicks : Obligations.SoundSignalAtTicks := by
  intro s x hrun
  have hset : { s with st := s.reg x }.advance.run = .running := hrun
  exact ⟨_, exec_ldStVx x s, fun ks =>
    ⟨State.ticks_soundActive_iff hset ks, State.ticks_handOff_soundActive_iff hset ks⟩⟩

/-- Settles O12: in a running block the step is the two decrements and the latch, and the host samples after the
decrements; in a halted block it takes the event from the queue and nothing more. -/
theorem tickEffect : Obligations.TickEffect := by
  intro s k hev
  have hstep : step s = .next (s.takeEvent.tick k) := step_tick hev
  refine ⟨fun hrun => ?running, fun hhalt => ?halted⟩
  case running =>
    rw [State.tick_running s.takeEvent k hrun] at hstep
    have hsample : s.handOff.soundActive = true ↔ 0 < (countDown s.st).toNat := by
      rw [State.handOff_soundActive_iff hrun, countDown_toNat, Nat.sub_pos_iff_lt]
    exact ⟨_, hstep, countDown_toNat s.dt, countDown_toNat s.st, rfl, rfl, by rw [State.handOff_eq s k], hsample⟩
  case halted =>
    rw [State.tick_halted s.takeEvent k hhalt] at hstep
    have hsample : s.handOff.soundActive = true ↔ 0 < s.st.toNat := by
      rw [State.handOff_eq s k, State.tick_halted s k hhalt, State.soundActive_iff]
    exact ⟨hstep, by rw [State.handOff_eq s k], hsample⟩

end Sys2Proof.Machine
end

section
/-! PROOFS. The decoder and the encoder (R61 to R66): decoding undoes encoding, encoding undoes decoding, the rows of
the opcode map are disjoint, and the words of no row are those of the table of R66. -/

namespace Sys2Proof

/-! ## Decoding undoes encoding -/

/-- The word of an instruction decodes to it. -/
theorem decodeWord_encode (i : Instr) : decodeWord (encode i) = some i := by
  cases i with
  | cls | ret => decide
  | jp nnn | call nnn | ldI nnn | jpV0 nnn => simp [encode, decodeWord]
  | seImm x nn | sneImm x nn | rnd x nn => simp [encode, decodeWord]
  | ldImm x nn => exact decodeWord_wordXnn_six x nn
  | addImm x nn => exact decodeWord_wordXnn_seven x nn
  | seReg x y => exact (decodeWord_wordXyn_five x y 0#4).trans (if_pos rfl)
  | sneReg x y => exact (decodeWord_wordXyn_nine x y 0#4).trans (if_pos rfl)
  | ldReg x y | orReg x y | andReg x y | xorReg x y | addReg x y | sub x y | shr x y | subn x y | shl x y =>
    exact decodeWord_wordXyn_eight x y _
  | drw x y n => simp [encode, decodeWord]
  | skp x | sknp x => simp [encode, decodeWord, decodeKeys]
  | ldVxDt x | ldVxK x | ldDtVx x | ldStVx x | addI x | ldF x | ldB x | storeRegs x | loadRegs x =>
    simp [encode, decodeWord, decodeMisc]

/-- Two bytes decode to the instruction of their word, whatever follows them. -/
theorem decode_of_decodeWord {hi lo : Byte} {i : Instr} (h : decodeWord (wordOfBytes hi lo) = some i)
    (rest : List Byte) : decode (hi :: lo :: rest) = .ok i rest := by
  simp only [decode, h]

/-- Two bytes that decode to an instruction are a word that does. -/
theorem decodeWord_of_decode {hi lo : Byte} {i : Instr} {rest : List Byte} (h : decode [hi, lo] = .ok i rest) :
    decodeWord (wordOfBytes hi lo) = some i := by
  cases hd : decodeWord (wordOfBytes hi lo) with
  | none => simp [decode, hd] at h
  | some j =>
    simp only [decode, hd, Decoded.ok.injEq] at h
    rw [h.1]

/-- Settles O2: every word of a format gives its fields back, and the two bytes of a word give the word back. -/
theorem decodeOfEncodeIsTheInstruction : Obligations.DecodeOfEncodeIsTheInstruction := by
  intro i _
  have hbytes : decodeWord (wordOfBytes (highByte (encode i)) (lowByte (encode i))) = some i := by
    rw [Machine.wordOfBytes_highByte_lowByte, decodeWord_encode]
  exact ⟨decodeWord_encode i, decode_of_decodeWord hbytes⟩

/-! ## Encoding undoes decoding -/

/-- A word of primary opcode 0 that decodes is the word of its instruction. -/
theorem encode_of_decodeZero {nnn : Addr} {i : Instr} (h : decodeZero nnn = some i) : encode i = wordNnn 0x0#4 nnn := by
  unfold decodeZero at h
  split at h <;> cases h <;> rfl

/-- A word of primary opcode 8 that decodes is the word of its instruction. -/
theorem encode_of_decodeAlu {x y : Reg} {n : Nibble} {i : Instr} (h : decodeAlu x y n = some i) :
    encode i = wordXyn 0x8#4 x y n := by
  unfold decodeAlu at h
  split at h <;> cases h <;> rfl

/-- A word of primary opcode E that decodes is the word of its instruction. -/
theorem encode_of_decodeKeys {x : Reg} {nn : Byte} {i : Instr} (h : decodeKeys x nn = some i) :
    encode i = wordXnn 0xE#4 x nn := by
  unfold decodeKeys at h
  split at h <;> cases h <;> rfl

/-- A word of primary opcode F that decodes is the word of its instruction. -/
theorem encode_of_decodeMisc {x : Reg} {nn : Byte} {i : Instr} (h : decodeMisc x nn = some i) :
    encode i = wordXnn 0xF#4 x nn := by
  unfold decodeMisc at h
  split at h <;> cases h <;> rfl

/-- A word from its primary opcode and its `nnn`. -/
theorem wordNnn_of_opField {w : Word} {op : Nibble} (hop : opField w = op) : wordNnn op (nnnField w) = w := by
  rw [← hop, wordNnn_fields]

/-- A word from its primary opcode, its `x` and its `nn`. -/
theorem wordXnn_of_opField {w : Word} {op : Nibble} (hop : opField w = op) :
    wordXnn op (xField w) (nnField w) = w := by
  rw [← hop, wordXnn_fields]

/-- A word from its primary opcode, its `x`, its `y` and its `n`. -/
theorem wordXyn_of_opField {w : Word} {op : Nibble} (hop : opField w = op) :
    wordXyn op (xField w) (yField w) (nField w) = w := by
  rw [← hop, wordXyn_fields]

/-- The word of the instruction a word decodes to is that word. -/
theorem encode_of_decodeWord {w : Word} {i : Instr} (h : decodeWord w = some i) : encode i = w := by
  unfold decodeWord at h
  split at h
  case h_1 hop => exact (encode_of_decodeZero h).trans (wordNnn_of_opField hop)
  case h_9 hop => exact (encode_of_decodeAlu h).trans (wordXyn_of_opField hop)
  case h_15 hop => exact (encode_of_decodeKeys h).trans (wordXnn_of_opField hop)
  case h_16 hop => exact (encode_of_decodeMisc h).trans (wordXnn_of_opField hop)
  case h_2 | h_3 | h_11 | h_12 => cases h; exact wordNnn_of_opField ‹_›
  case h_4 | h_5 | h_7 | h_8 | h_13 => cases h; exact wordXnn_of_opField ‹_›
  case h_14 => cases h; exact wordXyn_of_opField ‹_›
  case h_6 hop | h_10 hop =>
    obtain ⟨hn, hi⟩ := Option.ite_none_right_eq_some.mp h
    cases hi
    rw [encode, ← hn]
    exact wordXyn_of_opField hop
  case h_17 => cases h

/-- Settles O3: each primary opcode joins again the fields it was taken apart into. -/
theorem encodeOfDecodeIsTheWord : Obligations.EncodeOfDecodeIsTheWord :=
  fun _ _ h => encode_of_decodeWord h

/-! ## Rows of the opcode map -/

/-- The instruction of the row of `j` with the fields of `w` as its operands. -/
def rowInstr (w : Word) : Instr → Instr
  | .cls => .cls
  | .ret => .ret
  | .jp _ => .jp (nnnField w)
  | .call _ => .call (nnnField w)
  | .seImm _ _ => .seImm (xField w) (nnField w)
  | .sneImm _ _ => .sneImm (xField w) (nnField w)
  | .seReg _ _ => .seReg (xField w) (yField w)
  | .ldImm _ _ => .ldImm (xField w) (nnField w)
  | .addImm _ _ => .addImm (xField w) (nnField w)
  | .ldReg _ _ => .ldReg (xField w) (yField w)
  | .orReg _ _ => .orReg (xField w) (yField w)
  | .andReg _ _ => .andReg (xField w) (yField w)
  | .xorReg _ _ => .xorReg (xField w) (yField w)
  | .addReg _ _ => .addReg (xField w) (yField w)
  | .sub _ _ => .sub (xField w) (yField w)
  | .shr _ _ => .shr (xField w) (yField w)
  | .subn _ _ => .subn (xField w) (yField w)
  | .shl _ _ => .shl (xField w) (yField w)
  | .sneReg _ _ => .sneReg (xField w) (yField w)
  | .ldI _ => .ldI (nnnField w)
  | .jpV0 _ => .jpV0 (nnnField w)
  | .rnd _ _ => .rnd (xField w) (nnField w)
  | .drw _ _ _ => .drw (xField w) (yField w) (nField w)
  | .skp _ => .skp (xField w)
  | .sknp _ => .sknp (xField w)
  | .ldVxDt _ => .ldVxDt (xField w)
  | .ldVxK _ => .ldVxK (xField w)
  | .ldDtVx _ => .ldDtVx (xField w)
  | .ldStVx _ => .ldStVx (xField w)
  | .addI _ => .addI (xField w)
  | .ldF _ => .ldF (xField w)
  | .ldB _ => .ldB (xField w)
  | .storeRegs _ => .storeRegs (xField w)
  | .loadRegs _ => .loadRegs (xField w)

@[simp] theorem rowMask_rowInstr (w : Word) (j : Instr) : rowMask (rowInstr w j) = rowMask j := by
  cases j <;> rfl

@[simp] theorem rowMatch_rowInstr (w : Word) (j : Instr) : rowMatch (rowInstr w j) = rowMatch j := by
  cases j <;> rfl

/-- A mask of the primary opcode alone keeps it alone. -/
theorem and_mask_nnn (w : Word) : w &&& 0xF000#16 = wordNnn (opField w) 0#12 := by
  conv_lhs => rw [← wordNnn_fields w]
  exact Laws.mask_nnn _ _

/-- A mask of the first and the last nibble keeps them alone. -/
theorem and_mask_xy (w : Word) : w &&& 0xF00F#16 = wordXyn (opField w) 0#4 0#4 (nField w) := by
  conv_lhs => rw [← wordXyn_fields w]
  exact Laws.mask_xy _ _ _ _

/-- A mask of the first nibble and the last byte keeps them alone. -/
theorem and_mask_xs (w : Word) : w &&& 0xF0FF#16 = wordXnn (opField w) 0#4 (nnField w) := by
  conv_lhs => rw [← wordXnn_fields w]
  exact Laws.mask_xs _ _ _

/-- The primary opcode of a word that shows it under the mask of format NNN. -/
theorem opField_of_mask_nnn {w : Word} {op : Nibble} (h : w &&& 0xF000#16 = wordNnn op 0#12) : opField w = op := by
  have hop := congrArg opField ((and_mask_nnn w).symm.trans h)
  rwa [opField_wordNnn, opField_wordNnn] at hop

/-- Format NNN: a word that shows the opcode under the mask is the opcode and its `nnn`. -/
theorem wordNnn_of_mask {w : Word} {op : Nibble} (h : w &&& 0xF000#16 = wordNnn op 0#12) :
    wordNnn op (nnnField w) = w :=
  wordNnn_of_opField (opField_of_mask_nnn h)

/-- Format XNN: a word that shows the opcode under the mask is the opcode, its `x` and its `nn`. -/
theorem wordXnn_of_mask {w : Word} {op : Nibble} (h : w &&& 0xF000#16 = wordNnn op 0#12) :
    wordXnn op (xField w) (nnField w) = w :=
  wordXnn_of_opField (opField_of_mask_nnn h)

/-- Format XYN: a word that shows the opcode under the mask is the opcode, its `x`, its `y` and its `n`. -/
theorem wordXyn_of_mask {w : Word} {op : Nibble} (h : w &&& 0xF000#16 = wordNnn op 0#12) :
    wordXyn op (xField w) (yField w) (nField w) = w :=
  wordXyn_of_opField (opField_of_mask_nnn h)

/-- Format XY: a word that shows the opcode and the low nibble under the mask is the two with its `x` and its `y`. -/
theorem wordXy_of_mask {w : Word} {op n : Nibble} (h : w &&& 0xF00F#16 = wordXyn op 0#4 0#4 n) :
    wordXyn op (xField w) (yField w) n = w := by
  have hfields := (and_mask_xy w).symm.trans h
  have hop := congrArg opField hfields
  have hn := congrArg nField hfields
  simp only [opField_wordXyn, nField_wordXyn] at hop hn
  rw [← hop, ← hn, wordXyn_fields]

/-- Format XS: a word that shows the opcode and the low byte under the mask is the two with its `x`. -/
theorem wordXs_of_mask {w : Word} {op : Nibble} {nn : Byte} (h : w &&& 0xF0FF#16 = wordXnn op 0#4 nn) :
    wordXnn op (xField w) nn = w := by
  have hfields := (and_mask_xs w).symm.trans h
  have hop := congrArg opField hfields
  have hnn := congrArg nnField hfields
  simp only [opField_wordXnn, nnField_wordXnn] at hop hnn
  rw [← hop, ← hnn, wordXnn_fields]

/-- A word that meets a row's test is the word of the row's instruction with the word's fields (R62). -/
theorem encode_rowInstr {w : Word} {j : Instr} (h : w &&& rowMask j = rowMatch j) : encode (rowInstr w j) = w := by
  cases j with
  | cls | ret => exact h.symm.trans (BitVec.and_allOnes (x := w))
  | jp nnn | call nnn | ldI nnn | jpV0 nnn => exact wordNnn_of_mask h
  | seImm x nn | sneImm x nn | ldImm x nn | addImm x nn | rnd x nn => exact wordXnn_of_mask h
  | seReg x y | sneReg x y | ldReg x y | orReg x y | andReg x y | xorReg x y | addReg x y | sub x y | shr x y
  | subn x y | shl x y => exact wordXy_of_mask h
  | drw x y n => exact wordXyn_of_mask h
  | skp x | sknp x | ldVxDt x | ldVxK x | ldDtVx x | ldStVx x | addI x | ldF x | ldB x | storeRegs x | loadRegs x =>
    exact wordXs_of_mask h

/-- A word that meets a row's test decodes to the row's instruction with the word's fields. -/
theorem decodeWord_of_row {w : Word} {j : Instr} (h : w &&& rowMask j = rowMatch j) :
    decodeWord w = some (rowInstr w j) := by
  have hdec := decodeWord_encode (rowInstr w j)
  rwa [encode_rowInstr h] at hdec

/-- An instruction's word meets the test of its row (R62, R65). -/
theorem encode_and_rowMask (i : Instr) : encode i &&& rowMask i = rowMatch i := by
  cases i with
  | cls => exact Laws.RowMatch.cls
  | ret => exact Laws.RowMatch.ret
  | jp nnn | call nnn | ldI nnn | jpV0 nnn => exact Laws.mask_nnn _ _
  | seImm x nn | sneImm x nn | ldImm x nn | addImm x nn | rnd x nn => exact Laws.mask_xnn _ _ _
  | seReg x y | sneReg x y | ldReg x y | orReg x y | andReg x y | xorReg x y | addReg x y | sub x y | shr x y
  | subn x y | shl x y => exact Laws.mask_xy _ _ _ _
  | drw x y n => exact Laws.mask_xyn _ _ _ _
  | skp x | sknp x | ldVxDt x | ldVxK x | ldDtVx x | ldStVx x | addI x | ldF x | ldB x | storeRegs x | loadRegs x =>
    exact Laws.mask_xs _ _ _

/-- A word meets the test of the row of what it decodes to. -/
theorem and_rowMask_of_decodeWord {w : Word} {i : Instr} (h : decodeWord w = some i) :
    w &&& rowMask i = rowMatch i := by
  have hrow := encode_and_rowMask i
  rwa [encode_of_decodeWord h] at hrow

/-- Settles O4: a word of a row decodes to the row's instruction with its fields, so two rows of one word are the row of
what it decodes to. -/
theorem wordDecodesByItsRowAlone : Obligations.WordDecodesByItsRowAlone := by
  intro w j
  refine ⟨⟨fun h => ?decodes, ?meets⟩, fun k hj hk => ?disjoint⟩
  case decodes => exact ⟨_, decodeWord_of_row h, rowMask_rowInstr w j, rowMatch_rowInstr w j⟩
  case meets =>
    rintro ⟨i, hi, hmask, hmatch⟩
    rw [← hmask, ← hmatch]
    exact and_rowMask_of_decodeWord hi
  case disjoint =>
    have hsame : rowInstr w j = rowInstr w k :=
      Option.some.inj ((decodeWord_of_row hj).symm.trans (decodeWord_of_row hk))
    rw [← rowMatch_rowInstr w j, hsame, rowMatch_rowInstr]

/-! ## Unknown words -/

/-- Primary opcode 0 has no instruction but two words (R66). -/
theorem decodeZero_eq_none (nnn : Addr) : decodeZero nnn = none ↔ nnn ≠ 0x0E0#12 ∧ nnn ≠ 0x0EE#12 := by
  unfold decodeZero
  split
  · simp
  · simp
  · next h0 h1 => exact ⟨fun _ => ⟨h0, h1⟩, fun _ => rfl⟩

/-- Primary opcode 8 has no instruction with a low nibble of 8 to D or F (R66). -/
theorem decodeAlu_eq_none (x y : Reg) (n : Nibble) :
    decodeAlu x y n = none ↔ n ∈ [0x8#4, 0x9#4, 0xA#4, 0xB#4, 0xC#4, 0xD#4, 0xF#4] := by
  have hcases : ∀ m : Nibble, m ∈ [0x8#4, 0x9#4, 0xA#4, 0xB#4, 0xC#4, 0xD#4, 0xF#4] ∨
      m ∈ [0x0#4, 0x1#4, 0x2#4, 0x3#4, 0x4#4, 0x5#4, 0x6#4, 0x7#4, 0xE#4] := by decide
  unfold decodeAlu
  split
  case h_10 =>
    have hn := hcases n
    simp_all
  all_goals simp

/-- Primary opcode E has no instruction but with two low bytes (R66). -/
theorem decodeKeys_eq_none (x : Reg) (nn : Byte) : decodeKeys x nn = none ↔ nn ∉ [0x9E#8, 0xA1#8] := by
  unfold decodeKeys
  split <;> simp_all

/-- Primary opcode F has no instruction but with nine low bytes (R66). -/
theorem decodeMisc_eq_none (x : Reg) (nn : Byte) : decodeMisc x nn = none ↔
    nn ∉ [0x07#8, 0x0A#8, 0x15#8, 0x18#8, 0x1E#8, 0x29#8, 0x33#8, 0x55#8, 0x65#8] := by
  unfold decodeMisc
  split <;> simp_all

/-- A word with a primary opcode has an `nnn` exactly when it is the join of the two. -/
theorem nnnField_eq_iff {w : Word} {op : Nibble} {nnn : Addr} (hop : opField w = op) :
    nnnField w = nnn ↔ w = wordNnn op nnn := by
  refine ⟨fun hnnn => ?_, fun hw => ?_⟩
  · rw [← hnnn, wordNnn_of_opField hop]
  · rw [hw, nnnField_wordNnn]

/-- Settles O5: each primary opcode has its own line of the table, or none where every word is an instruction. -/
theorem unknownWordsAreTheTablesWords : Obligations.UnknownWordsAreTheTablesWords := by
  intro w
  unfold decodeWord
  split
  case h_1 hop =>
    have hcls : nnnField w = 0x0E0#12 ↔ w = 0x00E0#16 := nnnField_eq_iff (op := 0x0#4) hop
    have hret : nnnField w = 0x0EE#12 ↔ w = 0x00EE#16 := nnnField_eq_iff (op := 0x0#4) hop
    simp [hop, decodeZero_eq_none, hcls, hret]
  case h_6 hop => simp [hop]
  case h_9 hop => simp [hop, decodeAlu_eq_none]
  case h_10 hop => simp [hop]
  case h_15 hop => simp [hop, decodeKeys_eq_none]
  case h_16 hop => simp [hop, decodeMisc_eq_none]
  case h_17 =>
    exfalso
    generalize opField w = op at *
    revert op
    decide
  case h_2 hop | h_3 hop | h_4 hop | h_5 hop | h_7 hop | h_8 hop | h_11 hop | h_12 hop | h_13 hop | h_14 hop =>
    simp [hop]

/-- Settles O1: each word is decoded by evaluation. -/
theorem decoderReadsTheSpecsWords : Obligations.DecoderReadsTheSpecsWords := by
  unfold Obligations.DecoderReadsTheSpecsWords
  decide

end Sys2Proof
end

section
/-! PROOFS. The step (R80, R81, R88): what EXEC does in each of its cases, the word a host places, the halted block, and
what a RESET answers. -/

namespace Sys2Proof.Machine

variable {s : State}

/-! ## The event of a step -/

/-- A step whose event is EXEC is the EXEC of the state without that event. -/
theorem step_exec (h : s.nextEvent = .exec) : step s = s.takeEvent.execEvent := by
  rw [step, h]; rfl

/-- A step whose event is RESET is the RESET of the state without that event. -/
theorem step_reset {p : Platform} {prog : Option (List Byte)} {k : KeySet} (h : s.nextEvent = .reset p prog k) :
    step s = s.takeEvent.resetEvent p prog k := by
  rw [step, h]; rfl

/-- An event other than EXEC that the block takes next is in the queue. -/
theorem State.nextEvent_mem_pending (h : s.nextEvent ≠ .exec) : s.nextEvent ∈ s.pending := by
  unfold State.nextEvent at h ⊢
  cases hp : s.pending with
  | nil => simp [hp] at h
  | cons e es => simp

/-! ## EXEC -/

/-- An EXEC of a halted block changes nothing (R88). -/
theorem State.execEvent_halted (h : s.run = .halted) : s.execEvent = .next s := if_pos h

/-- An EXEC of a running block with a bad `pc` halts with FETCH (R82). -/
theorem State.execEvent_badFetch (hrun : s.run = .running) (hf : s.fetchable = false) :
    s.execEvent = .next (s.raise (.outOfBounds .fetch s.pc none s.pc)) := by
  simp [State.execEvent, hrun, hf]

/-- An EXEC of a running block that fetches an unknown word halts (R152). -/
theorem State.execEvent_unknown (hrun : s.run = .running) (hf : s.fetchable = true)
    (hd : decodeWord s.fetchWord = none) :
    s.execEvent = .next (s.raise (.unknownOpcode s.fetchWord s.pc)) := by
  simp [State.execEvent, hrun, hf, hd]

/-- An EXEC of a running block that fetches the word of an instruction runs it (R81). -/
theorem State.execEvent_decoded {i : Instr} (hrun : s.run = .running) (hf : s.fetchable = true)
    (hd : decodeWord s.fetchWord = some i) : s.execEvent = exec i s := by
  simp [State.execEvent, hrun, hf, hd]

/-- Settles O7: the fetch check passes and the fetched word decodes to the instruction. -/
theorem stepRunsTheDecodedInstruction : Obligations.StepRunsTheDecodedInstruction := by
  intro s i hrun heven hlo hhi hdec _
  have hf : s.fetchable = true := s.fetchable_iff.mpr ⟨heven, hlo, hhi⟩
  have hword : decodeWord s.fetchWord = some i := decodeWord_of_decode hdec
  refine ⟨fun hev => ?queued, fun hempty => ?empty⟩
  case queued => exact (step_exec hev).trans (State.execEvent_decoded (s := s.takeEvent) hrun hf hword)
  case empty =>
    obtain ⟨htake, hev⟩ := s.takeEvent_of_empty hempty
    rw [step_exec hev, htake, State.execEvent_decoded hrun hf hword]

/-- Settles O9: each of the three ways to miss the fetch range fails the fetch check. -/
theorem badFetchAddressHalts : Obligations.BadFetchAddressHalts := by
  intro s hev hrun hbad
  have hf : s.fetchable = false := by
    rw [Bool.eq_false_iff, ne_eq, State.fetchable_iff]
    omega
  exact (step_exec hev).trans (State.execEvent_badFetch (s := s.takeEvent) hrun hf)

/-- Settles O10: the fetch check passes and the fetched word decodes to nothing. -/
theorem unknownWordHalts : Obligations.UnknownWordHalts := by
  intro s hev hrun heven hlo hhi hd
  have hf : s.fetchable = true := s.fetchable_iff.mpr ⟨heven, hlo, hhi⟩
  exact (step_exec hev).trans (State.execEvent_unknown (s := s.takeEvent) hrun hf hd)

/-! ## The placed word -/

/-- The bytes placed for a word of 16 bits are its two bytes. -/
theorem tableBytes_word (w : Word) : tableBytes 16 w.toNat = [highByte w, lowByte w] := by
  have hw : BitVec.ofNat 16 (w.toNat % 2 ^ 16) = w := by
    rw [Nat.mod_eq_of_lt w.isLt, BitVec.ofNat_toNat, BitVec.setWidth_eq]
  rw [tableBytes, hw]

/-- A state made ready takes an EXEC next. -/
theorem State.readyToFetch_nextEvent (s : State) : s.readyToFetch.nextEvent = .exec := by
  have hhead := List.head?_dropWhile_not (fun e => decide (e ≠ Event.exec)) s.pending
  unfold State.nextEvent State.readyToFetch
  cases hq : s.pending.dropWhile (fun e => decide (e ≠ Event.exec)) with
  | nil => rfl
  | cons e es =>
    rw [hq] at hhead
    simpa using hhead

/-- A state made ready passes the fetch check. -/
theorem State.readyToFetch_fetchable (s : State) : s.readyToFetch.fetchable = true := by
  rw [State.fetchable_iff]
  cases hf : s.fetchable with
  | true =>
    have hpc : s.readyToFetch.pc = s.pc := by simp [State.readyToFetch, hf]
    rw [hpc]
    exact s.fetchable_iff.mp hf
  | false =>
    have hpc : s.readyToFetch.pc = Config.progBase := by simp [State.readyToFetch, hf]
    rw [hpc]
    decide

/-- The placed word is the one fetched. -/
theorem State.withFetchWord_fetchWord (s : State) (w : Word) : (s.withFetchWord 16 w.toNat).fetchWord = w := by
  rw [State.withFetchWord, State.placeWord, tableBytes_word]
  exact (s.readyToFetch.fetchWord_storeBytes_pc _ _ []).trans (wordOfBytes_highByte_lowByte w)

/-- Settles O8: the placing makes the block ready and puts the word where the fetch finds it. -/
theorem placedWordRunsNext : Obligations.PlacedWordRunsNext := by
  intro s i
  have hev : (s.withFetchWord 16 (encode i).toNat).nextEvent = .exec := s.readyToFetch_nextEvent
  have hf : (s.withFetchWord 16 (encode i).toNat).takeEvent.fetchable = true := s.readyToFetch_fetchable
  have hd : decodeWord (s.withFetchWord 16 (encode i).toNat).takeEvent.fetchWord = some i :=
    (congrArg decodeWord (s.withFetchWord_fetchWord (encode i))).trans (decodeWord_encode i)
  exact (step_exec hev).trans (State.execEvent_decoded rfl hf hd)

/-! ## The halted block, and RESET -/

/-- A step of a halted block that is no RESET takes the event from the queue and does nothing more (R88). -/
theorem step_halted (hrun : s.run = .halted) (hno : ∀ p prog k, s.nextEvent ≠ .reset p prog k) :
    step s = .next s.takeEvent := by
  rcases step_cases s with ⟨-, hstep⟩ | ⟨k, -, hstep⟩ | ⟨p, prog, k, hev, -⟩
  · exact hstep.trans (State.execEvent_halted (s := s.takeEvent) hrun)
  · rw [hstep, State.tick_halted s.takeEvent k hrun]
  · exact absurd hev (hno p prog k)

/-- Steps of a halted block with no RESET queued use up the queue and do nothing more (R88). -/
theorem run_halted (n : Nat) (hrun : s.run = .halted) (hno : ∀ p prog k, Event.reset p prog k ∉ s.pending) :
    Host.Core.run Sys2Proof.core n s = .next { s with pending := s.pending.drop n } := by
  induction n generalizing s with
  | zero => rfl
  | succ n ih =>
    have hnext : ∀ p prog k, s.nextEvent ≠ .reset p prog k := fun p prog k hev =>
      hno p prog k (hev ▸ State.nextEvent_mem_pending (by simp [hev]))
    have hno' : ∀ p prog k, Event.reset p prog k ∉ s.takeEvent.pending := fun p prog k hmem =>
      hno p prog k (List.mem_of_mem_tail hmem)
    rw [run_succ_of_next s n _ (step_halted hrun hnext), ih (s := s.takeEvent) hrun hno', State.takeEvent_pending,
      List.drop_tail]
    rfl

/-- A RESET with an accepted program and platform loads the program (R180, R182, R183). -/
theorem State.resetEvent_accepted {p : Platform} {prog : List Byte} (k : KeySet) (hlen : prog.length ≤ 3584)
    (hfont : p.fontBase.toNat + 79 ≤ 0x1FF) : s.resetEvent p (some prog) k = .next (s.load p prog k) := by
  have hfits : Config.programFits prog = true := decide_eq_true hlen
  have hwf : p.wellFormed = true := decide_eq_true hfont
  simp [State.resetEvent, hfits, hwf]

/-- Settles O11: a halted block takes events from its queue alone, and a load leaves a running block. -/
theorem haltedBlockStaysUntilReset : Obligations.HaltedBlockStaysUntilReset := by
  refine ⟨fun n s hrun hno => run_halted n hrun hno, fun s p prog k _ hev hlen hfont => ?_⟩
  exact ⟨_, (step_reset hev).trans (State.resetEvent_accepted k hlen hfont), rfl, rfl⟩

/-- Settles O17: the length check comes first, and a missing program has no length. -/
theorem oversizedProgramIsNotLoaded : Obligations.OversizedProgramIsNotLoaded := by
  intro s p prog k
  refine ⟨fun hev hlong => ?tooLong, fun hev => step_reset hev⟩
  case tooLong =>
    have hfits : Config.programFits prog = false := decide_eq_false (Nat.not_le.mpr hlong)
    rw [step_reset hev]
    simp [State.resetEvent, hfits]

end Sys2Proof.Machine
end

section
/-! PROOFS. Control transfer (R90 to R98): the return and the call with a legal stack pointer and at its limits, the two
jumps, and the skips on an immediate. -/

namespace Sys2Proof.Machine

variable {s : State}

/-! ## Frames -/

/-- A jump changes nothing but `pc`. -/
theorem State.jumpTo_frame (s : State) (target : Word) : State.Frame noReg [] s (s.jumpTo target) := by
  simp [State.Frame]

/-- A write of `SP` and `pc` changes nothing else. -/
theorem State.setSp_frame (s : State) (sp : Byte) (pc : Word) :
    State.Frame noReg [.sp] s { s with sp := sp, pc := pc } := by
  simp [State.Frame, State.reg, State.readByte]

/-- A write of the stack, `SP` and `pc` changes nothing else. -/
theorem State.setStack_frame (s : State) (stack : Vector Word 16) (sp : Byte) (pc : Word) :
    State.Frame noReg [.sp, .stack] s { s with stack := stack, sp := sp, pc := pc } := by
  simp [State.Frame, State.reg, State.readByte]

/-! ## The return (R90) -/

/-- `00EE` with a live entry pops it into `pc`. -/
theorem exec_ret_live (h1 : 1 ≤ s.sp.toNat) (h16 : s.sp.toNat ≤ 16) :
    ∃ h : s.sp.toNat - 1 < 16, exec .ret s = .next { s with sp := s.sp - 1#8, pc := s.stack[s.sp.toNat - 1] } := by
  rcases execRet_cases s with ⟨h0, -⟩ | ⟨-, -, h⟩ | ⟨hbig, -⟩
  · simp [h0] at h1
  · exact h
  · omega

/-- `00EE` with no live entry halts with STACK_UNDERFLOW. -/
theorem exec_ret_empty (h0 : s.sp = 0#8) :
    exec .ret s = .next (s.raise (.outOfBounds .stackUnderflow 0#16 (some (encode .ret)) s.pc)) := if_pos h0

/-- One live entry less, as a number. -/
theorem toNat_sub_one_byte {b : Byte} (h : 1 ≤ b.toNat) : (b - 1#8).toNat = b.toNat - 1 := by bv_omega

/-- One live entry more, as a number. -/
theorem toNat_add_one_byte {b : Byte} (h : b.toNat ≤ 15) : (b + 1#8).toNat = b.toNat + 1 := by bv_omega

/-- Settles O26: the popped entry is the last live one, and nothing but `SP` and `pc` is written. -/
theorem returnPopsTheLastEntry : Obligations.ReturnPopsTheLastEntry := by
  intro s h1 h16
  obtain ⟨hlt, hexec⟩ := exec_ret_live h1 h16
  exact ⟨_, hexec, toNat_sub_one_byte h1, rfl, Vector.getElem?_eq_getElem hlt, s.setSp_frame _ _⟩

/-- Settles O27: the check of the empty stack comes first. -/
theorem returnOnEmptyStackHalts : Obligations.ReturnOnEmptyStackHalts :=
  fun _ h0 => exec_ret_empty h0

/-! ## The call (R92) -/

/-- `2nnn` with a free entry pushes the address after the call and jumps. -/
theorem exec_call_free (nnn : Addr) (h : s.sp.toNat < 16) :
    exec (.call nnn) s = .next { s with
      stack := s.stack.set s.sp.toNat (s.pc + 2#16), sp := s.sp + 1#8, pc := zextAddr nnn } := by
  rcases execCall_cases s nnn with ⟨h16, -⟩ | ⟨_, hcall⟩ | ⟨hbig, -⟩
  · simp [h16] at h
  · exact hcall
  · omega

/-- `2nnn` with 16 live entries halts with STACK_OVERFLOW. -/
theorem exec_call_full (nnn : Addr) (h : s.sp = 16#8) :
    exec (.call nnn) s =
      .next (s.raise (.outOfBounds .stackOverflow 16#16 (some (encode (.call nnn))) s.pc)) := if_pos h

/-- Settles O28: the pushed entry is the one at `SP`, and nothing but the stack, `SP` and `pc` is written. -/
theorem callPushesTheNextAddress : Obligations.CallPushesTheNextAddress := by
  intro s nnn h15
  have hlt : s.sp.toNat < 16 := by omega
  exact ⟨_, exec_call_free nnn hlt, Vector.getElem?_set_self hlt,
    fun j hj => Vector.getElem?_set_ne hlt (Ne.symm hj), toNat_add_one_byte h15, zextAddr_toNat nnn,
    s.setStack_frame _ _ _⟩

/-- Settles O29: the check of the full stack comes first. -/
theorem callOnFullStackHalts : Obligations.CallOnFullStackHalts :=
  fun _ nnn h16 => exec_call_full nnn h16

/-- Settles O30: the return finds `SP` one higher and pops what the call pushed. -/
theorem callThenReturnGoesOnAfterTheCall : Obligations.CallThenReturnGoesOnAfterTheCall := by
  intro s nnn h15
  have hlt : s.sp.toNat < 16 := by omega
  have hsp : (s.sp + 1#8).toNat = s.sp.toNat + 1 := toNat_add_one_byte h15
  obtain ⟨_, hret⟩ := exec_ret_live (s := { s with
    stack := s.stack.set s.sp.toNat (s.pc + 2#16), sp := s.sp + 1#8, pc := zextAddr nnn })
    (by simp only [hsp]; omega) (by simp only [hsp]; omega)
  refine ⟨_, _, exec_call_free nnn hlt, hret, ?pc, ?sp, ?stack, ?frame⟩
  case pc => simp [hsp]
  case sp => exact BitVec.add_sub_cancel s.sp 1#8
  case stack => exact fun j hj => Vector.getElem?_set_ne hlt (Ne.symm hj)
  case frame => simp [State.Frame, State.reg, State.readByte]

/-! ## The jumps (R91, R97) -/

/-- `1nnn` jumps to `nnn`. -/
theorem exec_jp (nnn : Addr) (s : State) : exec (.jp nnn) s = .next (s.jumpTo (zextAddr nnn)) := rfl

/-- `Bnnn` jumps to the sum of `nnn` and `V0`. -/
theorem exec_jpV0 (nnn : Addr) (s : State) :
    exec (.jpV0 nnn) s = .next (s.jumpTo (zextAddr nnn + zextByte (s.reg 0#4))) := rfl

/-- The sum of an address and a byte does not wrap. -/
theorem zextAddr_add_zextByte_toNat (nnn : Addr) (b : Byte) :
    (zextAddr nnn + zextByte b).toNat = nnn.toNat + b.toNat := by
  have := nnn.isLt
  have := b.isLt
  rw [BitVec.toNat_add, zextAddr_toNat, zextByte_toNat, Nat.mod_eq_of_lt (by omega)]

/-- Settles O31: a jump writes `pc` alone, so a jump to its own address writes the value already there. -/
theorem jumpResult : Obligations.JumpResult := by
  intro s nnn
  refine ⟨_, exec_jp nnn s, zextAddr_toNat nnn, s.jumpTo_frame _, fun hself => ?itself, fun hrun hbad => ?badTarget⟩
  case itself =>
    have hpc : zextAddr nnn = s.pc := BitVec.eq_of_toNat_eq ((zextAddr_toNat nnn).trans hself.symm)
    rw [hpc]; rfl
  case badTarget =>
    have hf : (s.jumpTo (zextAddr nnn)).fetchable = false := by
      rw [Bool.eq_false_iff, ne_eq, State.fetchable_iff, State.jumpTo_pc, zextAddr_toNat]
      omega
    exact State.execEvent_badFetch (s := s.jumpTo (zextAddr nnn)) hrun hf

/-- Settles O32: the largest sum is 0xFFF plus 0xFF. -/
theorem indexedJumpResult : Obligations.IndexedJumpResult := by
  intro s nnn
  have hsum := zextAddr_add_zextByte_toNat nnn (s.reg 0#4)
  refine ⟨_, exec_jpV0 nnn s, hsum, ?bound, s.jumpTo_frame _⟩
  case bound =>
    have := nnn.isLt
    have := (s.reg 0#4).isLt
    rw [State.jumpTo_pc, hsum]
    omega

/-! ## The skips on an immediate (R93, R94) -/

/-- `3xnn` is a skip on equality. -/
theorem exec_seImm (x : Reg) (nn : Byte) (s : State) : exec (.seImm x nn) s = .next (s.skipIf (s.reg x == nn)) := rfl

/-- `4xnn` is a skip on inequality. -/
theorem exec_sneImm (x : Reg) (nn : Byte) (s : State) : exec (.sneImm x nn) s = .next (s.skipIf (s.reg x != nn)) := rfl

/-- Settles O33: a skip moves `pc` by 4 or by 2 as its condition says. -/
theorem skipOnImmediateResult : Obligations.SkipOnImmediateResult := by
  intro s x nn
  refine ⟨⟨_, exec_seImm x nn s, s.skipIf_frame _, ?seEqual, ?seUnequal⟩,
    ⟨_, exec_sneImm x nn s, s.skipIf_frame _, ?sneUnequal, ?sneEqual⟩⟩
  case seEqual => intro h; simp [BitVec.toNat_inj.mp h]
  case seUnequal => intro h; simp [BitVec.toNat_inj.not.mp h]
  case sneUnequal => intro h; simp [BitVec.toNat_inj.not.mp h]
  case sneEqual => intro h; simp [BitVec.toNat_inj.mp h]

end Sys2Proof.Machine
end

section
/-! PROOFS. The flag-writing ALU (R107 to R113): the frame of two register writes, and the values of result and flag. -/

namespace Sys2Proof.Machine

/-! ## The meanings, by the values they write -/

/-- `8xy4` writes the sum, then the carry (R107). -/
theorem exec_addReg (x y : Reg) (s : State) : exec (.addReg x y) s =
    .next ((s.setReg x (s.reg x + s.reg y)).setReg State.vf (carryFlag (s.reg x) (s.reg y))).advance := rfl

/-- `8xy5` writes the difference, then the no-borrow flag (R108). -/
theorem exec_sub (x y : Reg) (s : State) : exec (.sub x y) s =
    .next ((s.setReg x (s.reg x - s.reg y)).setReg State.vf (noBorrowFlag (s.reg x) (s.reg y))).advance := rfl

/-- `8xy7` writes the reverse difference, then the no-borrow flag (R110). -/
theorem exec_subn (x y : Reg) (s : State) : exec (.subn x y) s =
    .next ((s.setReg x (s.reg y - s.reg x)).setReg State.vf (noBorrowFlag (s.reg y) (s.reg x))).advance := rfl

/-- `8xy6` writes the bit shifted out, then the shift of the register as it then is (R109). -/
theorem exec_shr (x y : Reg) (s : State) : exec (.shr x y) s =
    .next ((s.setReg State.vf (shiftedOutRight (s.reg x))).setReg x
      ((s.setReg State.vf (shiftedOutRight (s.reg x))).reg x >>> 1)).advance := rfl

/-- `8xyE` writes the bit shifted out, then the shift of the register as it then is (R111). -/
theorem exec_shl (x y : Reg) (s : State) : exec (.shl x y) s =
    .next ((s.setReg State.vf (shiftedOutLeft (s.reg x))).setReg x
      ((s.setReg State.vf (shiftedOutLeft (s.reg x))).reg x <<< 1)).advance := rfl

/-! ## Frames -/

/-- A write of a register and then of the flag, then `pc + 2`, changes nothing else. -/
theorem State.advance_setFlag_setReg_frame (s : State) (x : Reg) (b f : Byte) :
    State.Frame (regAndFlag x) [] s ((s.setReg x b).setReg State.vf f).advance := by
  simp +contextual [State.Frame, regAndFlag]

/-- A write of the flag and then of a register, then `pc + 2`, changes nothing else. -/
theorem State.advance_setReg_setFlag_frame (s : State) (x : Reg) (b f : Byte) :
    State.Frame (regAndFlag x) [] s ((s.setReg State.vf f).setReg x b).advance := by
  simp +contextual [State.Frame, regAndFlag]

/-! ## Flags and results as numbers -/

@[simp] theorem carryFlag_toNat (a b : Byte) : (carryFlag a b).toNat = if a.toNat + b.toNat > 255 then 1 else 0 := by
  simp [carryFlag]

@[simp] theorem noBorrowFlag_toNat (a b : Byte) : (noBorrowFlag a b).toNat = if a.toNat ≥ b.toNat then 1 else 0 := by
  simp [noBorrowFlag]

/-- The bit lost to the right is the remainder by 2. -/
@[simp] theorem shiftedOutRight_toNat (a : Byte) : (shiftedOutRight a).toNat = a.toNat % 2 := by
  rw [shiftedOutRight, flagByte_toNat, BitVec.getLsbD, Nat.testBit_zero]
  rcases Nat.mod_two_eq_zero_or_one a.toNat with h | h <;> simp [h]

/-- The bit lost to the left is the quotient by 128. -/
@[simp] theorem shiftedOutLeft_toNat (a : Byte) : (shiftedOutLeft a).toNat = a.toNat / 128 := by
  have hquot : a.toNat / 128 < 2 := by omega
  rw [shiftedOutLeft, flagByte_toNat, BitVec.getLsbD, Nat.testBit_eq_decide_div_mod_eq, Nat.mod_eq_of_lt hquot]
  rcases Nat.lt_or_ge a.toNat 128 with h | h
  · simp [Nat.div_eq_of_lt h]
  · rw [show a.toNat / 128 = 1 by omega]; rfl

/-- A difference of bytes is modulo 256. -/
theorem toNat_sub_byte (a b : Byte) : (a - b).toNat = (a.toNat + 256 - b.toNat) % 256 := by
  have := b.isLt
  rw [BitVec.toNat_sub]
  congr 1
  omega

/-! ## The obligations -/

/-- Settles O38: the carry is written last, from the entry values. -/
theorem addResult : Obligations.AddResult := by
  intro s x y
  refine ⟨_, exec_addReg x y s, ?flag, fun hx => ?result, rfl, s.advance_setFlag_setReg_frame x _ _⟩
  case flag => simp
  case result => simp [hx]

/-- Settles O39: the no-borrow flag is written last, from the entry values. -/
theorem subtractResult : Obligations.SubtractResult := by
  intro s x y
  refine ⟨⟨_, exec_sub x y s, ?subFlag, fun hx => ?subResult, rfl, s.advance_setFlag_setReg_frame x _ _⟩,
    ⟨_, exec_subn x y s, ?subnFlag, fun hx => ?subnResult, rfl, s.advance_setFlag_setReg_frame x _ _⟩⟩
  case subFlag | subnFlag => simp
  case subResult | subnResult =>
    rw [State.reg_advance, State.reg_setReg_other _ _ hx, State.reg_setReg_same, toNat_sub_byte]

/-- Settles O40: the flag is written first, so with `x` another register both values are those of the entry value, and
with `x = 15` the flag itself is shifted. -/
theorem shiftResult : Obligations.ShiftResult := by
  intro s x y
  refine ⟨⟨_, exec_shr x y s, fun hx => ?shrOther, fun hx => ?shrFlag, fun y' => exec_shr x y' s, rfl,
      s.advance_setReg_setFlag_frame x _ _⟩,
    ⟨_, exec_shl x y s, fun hx => ?shlOther, fun hx => ?shlFlag, fun y' => exec_shl x y' s, rfl,
      s.advance_setReg_setFlag_frame x _ _⟩⟩
  case shrOther => simp [hx, hx.symm, Nat.shiftRight_one]
  case shlOther => simp [hx, hx.symm, Nat.shiftLeft_eq, Nat.mul_comm]
  case shrFlag =>
    subst hx
    apply BitVec.eq_of_toNat_eq
    simp only [State.reg_advance, State.reg_setReg_same, BitVec.toNat_ushiftRight, shiftedOutRight_toNat,
      Nat.shiftRight_one, BitVec.toNat_zero]
    omega
  case shlFlag =>
    subst hx
    have hbyte := (s.reg State.vf).isLt
    simp only [State.reg_advance, State.reg_setReg_same, BitVec.toNat_shiftLeft, shiftedOutLeft_toNat,
      Nat.shiftLeft_eq]
    split <;> omega

end Sys2Proof.Machine
end

section
/-! PROOFS. RESET and its memory image (R180 to R182), and the glyphs found in it (R122). -/

namespace Sys2Proof.Machine

variable {s : State}

/-! ## The values after a RESET -/

/-- Right after a RESET every register is 0 (R25). -/
theorem State.boot_reg (p : Platform) (k : KeySet) (draws : Nat) (pending : List Event) (r : Reg) :
    (State.boot p k draws pending).reg r = 0#8 :=
  Vector.getElem_replicate r.isLt

/-- Right after a RESET every stack entry is 0 (decision D17). -/
theorem State.boot_stack (p : Platform) (k : KeySet) (draws : Nat) (pending : List Event) (j : Nat) (h : j < 16) :
    (State.boot p k draws pending).stack[j] = 0#16 :=
  Vector.getElem_replicate h

/-- A loaded program is at 0x200 (R180). -/
theorem State.load_readByte_program (s : State) (p : Platform) (prog : List Byte) (k : KeySet) (j : Nat)
    (h : j < prog.length) : (s.load p prog k).readByte (0x200 + j) = prog[j] :=
  (State.boot p k s.draws s.pending).readByte_storeBytes_inside 0x200 prog j h

/-- Outside the program a load leaves what an unlisted address reads as (R182). -/
theorem State.load_readByte_outside (s : State) (p : Platform) (prog : List Byte) (k : KeySet) (a : Nat)
    (h : a < 0x200 ∨ 0x200 + prog.length ≤ a) : (s.load p prog k).readByte a = Memory.unlisted p a :=
  (State.boot p k s.draws s.pending).readByte_storeBytes_outside 0x200 prog a h

/-- A font in the reserved range is not overwritten by the program (R182). -/
theorem State.load_readByte_font (s : State) {p : Platform} (prog : List Byte) (k : KeySet)
    (hfont : p.fontBase.toNat + 79 ≤ 0x1FF) (j : Nat) (h : j < 80) :
    (s.load p prog k).readByte (p.fontBase.toNat + j) = p.fontData[j] := by
  rw [s.load_readByte_outside p prog k _ (.inl (by omega)), Memory.unlisted_font p j h]

/-- Settles O16: the load writes the program into a memory that lists nothing, so every other byte is the unlisted
one. -/
theorem resetLoadsTheImage : Obligations.ResetLoadsTheImage := by
  intro s p prog k hev hlen hfont
  refine ⟨_, (step_reset hev).trans (State.resetEvent_accepted k hlen hfont),
    State.boot_reg p k s.draws s.pending.tail, rfl, rfl, rfl, rfl, rfl,
    State.boot_stack p k s.draws s.pending.tail, rfl, rfl, rfl, rfl,
    State.load_readByte_program _ p prog k, State.load_readByte_font _ prog k hfont, fun a hfree hout => ?zero,
    rfl, rfl, rfl⟩
  case zero => exact (State.load_readByte_outside _ p prog k a hout).trans (Memory.unlisted_zero p a hfree)

/-- Settles O18: the state right after reset lists no memory, and the default font is at 0x50. -/
theorem resetStateValues : Obligations.ResetStateValues :=
  ⟨State.boot_reg _ _ _ _, rfl, rfl, rfl, rfl, rfl, State.boot_stack _ _ _ _, rfl, rfl, rfl, rfl,
    Memory.unlisted_zero Config.defaultPlatform, Memory.unlisted_font Config.defaultPlatform⟩

/-! ## Address arithmetic (R121, R122) -/

/-- `Fx1E` adds `Vx` to `I`. -/
theorem exec_addI (x : Reg) (s : State) :
    exec (.addI x) s = .next { s with i := s.i + zextByte (s.reg x) }.advance := rfl

/-- `Fx29` points `I` at the glyph of `Vx`. -/
theorem exec_ldF (x : Reg) (s : State) :
    exec (.ldF x) s = .next { s with i := s.glyphAddr (s.reg x) }.advance := rfl

/-- A glyph's address in numbers. -/
theorem State.glyphAddr_toNat (s : State) (b : Byte) :
    (s.glyphAddr b).toNat = (s.platform.fontBase.toNat + 5 * b.toNat) % 65536 := by
  simp [State.glyphAddr]

/-- With an accepted font base a glyph's address does not wrap. -/
theorem State.glyphAddr_toNat_of_le (b : Byte) (h : s.platform.fontBase.toNat + 79 ≤ 0x1FF) :
    (s.glyphAddr b).toNat = s.platform.fontBase.toNat + 5 * b.toNat := by
  have := b.isLt
  rw [State.glyphAddr_toNat, Nat.mod_eq_of_lt (by omega)]

/-- Settles O42: both are sums of 16-bit words, and 0x1FF plus five times 255 is below 65536. -/
theorem addressArithmeticResult : Obligations.AddressArithmeticResult := by
  intro s x
  refine ⟨⟨_, exec_addI x s, ?sum, rfl, s.advance_setI_frame _⟩,
    ⟨_, exec_ldF x s, s.glyphAddr_toNat _, fun hwf => ?glyph, rfl, s.advance_setI_frame _⟩⟩
  case sum => simp
  case glyph => exact State.glyphAddr_toNat_of_le _ (of_decide_eq_true hwf)

/-- Settles O43: five times a digit is at most 75, so the five bytes from there lie in the font. -/
theorem glyphAddressFindsTheGlyph : Obligations.GlyphAddressFindsTheGlyph := by
  intro s p prog k x d _ hfont hd
  refine ⟨_, exec_ldF x _, fun j hj => ?_⟩
  have hj80 : 5 * d.toNat + j < 80 := by omega
  have hi : (((s.load p prog k).setReg x d).glyphAddr (((s.load p prog k).setReg x d).reg x)).toNat =
      p.fontBase.toNat + 5 * d.toNat := by
    rw [State.reg_setReg_same]
    exact State.glyphAddr_toNat_of_le d hfont
  calc
    _ = (s.load p prog k).readByte (p.fontBase.toNat + (5 * d.toNat + j)) := by rw [← Nat.add_assoc, ← hi]; rfl
    _ = p.fontData[5 * d.toNat + j] := s.load_readByte_font prog k hfont _ hj80
    _ = _ := by rw [List.getD_eq_getElem _ _ (by simpa using hj80), Vector.getElem_toList]

end Sys2Proof.Machine
end

section
/-! PROOFS. The memory instructions (R123 to R126): in range, with what is read back after a store, and out of range. -/

namespace Sys2Proof.Machine

variable {s : State}

/-! ## The bounds check -/

/-- In range a ranged instruction has its effect. -/
theorem State.withRange_of_le {n : Nat} (c : Cause) (i : Instr) (e : State) (h : n = 0 ∨ s.i.toNat + n ≤ 4096) :
    s.withRange n c i e = e :=
  if_pos ((s.inRange_iff n).mpr h)

/-- Out of range a ranged instruction halts with the lowest bad address, and nothing else changes (R87, R151). -/
theorem State.withRange_of_gt {n : Nat} (c : Cause) (i : Instr) (e : State) (h0 : n ≠ 0)
    (h : 4096 < s.i.toNat + n) : s.withRange n c i e =
      s.haltedWith (.outOfBounds c (BitVec.ofNat 16 (max s.i.toNat 4096)) (some (encode i)) s.pc) := by
  have hout : ¬ s.inRange n = true := by
    rw [State.inRange_iff]
    omega
  rw [← s.lowestBad_eq]
  exact if_neg hout

/-! ## The meanings -/

/-- `Fx33` stores the digits of `Vx`, if they fit (R123). -/
theorem exec_ldB (x : Reg) (s : State) : exec (.ldB x) s =
    .next (s.withRange 3 .memWrite (.ldB x) (s.storeBytes s.i.toNat (decimalDigits (s.reg x))).advance) := rfl

/-- `Fx55` stores `V0` to `Vx`, if they fit (R124). -/
theorem exec_storeRegs (x : Reg) (s : State) : exec (.storeRegs x) s =
    .next (s.withRange (x.toNat + 1) .memWrite (.storeRegs x) (s.storeBytes s.i.toNat (s.regsUpTo x)).advance) := rfl

/-- `Fx65` loads `V0` to `Vx`, if they are in range (R125). -/
theorem exec_loadRegs (x : Reg) (s : State) : exec (.loadRegs x) s =
    .next (s.withRange (x.toNat + 1) .memRead (.loadRegs x)
      (s.setRegs 0 (s.readBytes s.i.toNat (x.toNat + 1))).advance) := rfl

/-- `Dxyn` draws, if its bytes are in range (R132). -/
theorem exec_drw (x y : Reg) (n : Nibble) (s : State) : exec (.drw x y n) s =
    .next (s.withRange n.toNat .memRead (.drw x y n) (s.drawSprite x y n)) := rfl

/-- `Fx33` in range. -/
theorem exec_ldB_of_le (x : Reg) (h : s.i.toNat + 2 ≤ 4095) : exec (.ldB x) s =
    .next (s.storeBytes s.i.toNat (decimalDigits (s.reg x))).advance := by
  rw [exec_ldB, State.withRange_of_le _ _ _ (.inr (by omega))]

/-- `Fx55` in range. -/
theorem exec_storeRegs_of_le (x : Reg) (h : s.i.toNat + x.toNat ≤ 4095) : exec (.storeRegs x) s =
    .next (s.storeBytes s.i.toNat (s.regsUpTo x)).advance := by
  rw [exec_storeRegs, State.withRange_of_le _ _ _ (.inr (by omega))]

/-- `Fx65` in range. -/
theorem exec_loadRegs_of_le (x : Reg) (h : s.i.toNat + x.toNat ≤ 4095) : exec (.loadRegs x) s =
    .next (s.setRegs 0 (s.readBytes s.i.toNat (x.toNat + 1))).advance := by
  rw [exec_loadRegs, State.withRange_of_le _ _ _ (.inr (by omega))]

/-- Settles O48: each of the four fails the bounds check. -/
theorem outOfRangeAccessHalts : Obligations.OutOfRangeAccessHalts := by
  intro s x y n
  refine ⟨fun h => ?digits, fun h => ?store, fun h => ?load, fun hn h => ?draw⟩
  case digits => rw [exec_ldB, State.withRange_of_gt _ _ _ (by omega) (by omega)]; rfl
  case store => rw [exec_storeRegs, State.withRange_of_gt _ _ _ (by omega) (by omega)]; rfl
  case load => rw [exec_loadRegs, State.withRange_of_gt _ _ _ (by omega) (by omega)]; rfl
  case draw => rw [exec_drw, State.withRange_of_gt _ _ _ (by simpa [← BitVec.toNat_inj] using hn) h]; rfl

/-! ## Frames -/

/-- A block store, then `pc + 2`, changes nothing but memory and `pc`. -/
theorem State.advance_storeBytes_frame (s : State) (a : Nat) (bs : List Byte) :
    State.Frame noReg [.mem] s (s.storeBytes a bs).advance := by
  simp [State.Frame]

/-- A write of the registers that a condition names, then `pc + 2`, changes nothing else. -/
theorem State.advance_setV_frame {regs : Reg → Prop} {v : Vector Byte 16}
    (h : ∀ r : Reg, ¬ regs r → v[r.toNat] = s.reg r) : State.Frame regs [] s { s with v := v }.advance := by
  simpa [State.Frame, State.reg, State.readByte] using h

/-! ## Blocks stored and loaded -/

/-- What three stored digits read as (R123). -/
theorem State.readByte_storeBytes_decimalDigits (s : State) (a : Nat) (b : Byte) :
    ((s.storeBytes a (decimalDigits b)).readByte a).toNat = b.toNat / 100 ∧
    ((s.storeBytes a (decimalDigits b)).readByte (a + 1)).toNat = b.toNat / 10 % 10 ∧
    ((s.storeBytes a (decimalDigits b)).readByte (a + 2)).toNat = b.toNat % 10 := by
  have hread : ∀ j (h : j < 3), (s.storeBytes a (decimalDigits b)).readByte (a + j) = (decimalDigits b)[j] :=
    s.readByte_storeBytes_inside a (decimalDigits b)
  refine ⟨?hundreds, ?tens, ?ones⟩
  case hundreds =>
    have hzero := hread 0 (by omega)
    rw [Nat.add_zero] at hzero
    rw [hzero]; simp [decimalDigits]; omega
  case tens => rw [hread 1 (by omega)]; simp [decimalDigits]; omega
  case ones => rw [hread 2 (by omega)]; simp [decimalDigits]; omega

/-- What a stored register reads as (R124). -/
theorem State.readByte_storeBytes_regsUpTo (s : State) (a : Nat) {x r : Reg} (h : r.toNat ≤ x.toNat) :
    (s.storeBytes a (s.regsUpTo x)).readByte (a + r.toNat) = s.reg r := by
  have hr : r.toNat < (s.regsUpTo x).length := by rw [State.regsUpTo_length]; omega
  rw [State.readByte_storeBytes_inside _ _ _ _ hr, State.regsUpTo_getElem, BitVec.ofNat_toNat, BitVec.setWidth_eq]

/-- A loaded register holds its byte (R125). -/
theorem State.reg_setRegs_readBytes (s : State) (a : Nat) {x r : Reg} (h : r.toNat ≤ x.toNat) :
    (s.setRegs 0 (s.readBytes a (x.toNat + 1))).reg r = s.readByte (a + r.toNat) := by
  have hx := x.isLt
  rw [State.reg_setRegs _ _ _ (by rw [State.readBytes_length]; omega), if_pos (Nat.zero_le _), Nat.sub_zero,
    List.getD_eq_getElem _ _ (by rw [State.readBytes_length]; omega), State.readBytes_getElem]

/-- A register above those loaded keeps its value (R125). -/
theorem State.reg_setRegs_readBytes_above (s : State) (a : Nat) {x r : Reg} (h : x.toNat < r.toNat) :
    (s.setRegs 0 (s.readBytes a (x.toNat + 1))).reg r = s.reg r := by
  have hr := r.isLt
  rw [State.reg_setRegs _ _ _ (by rw [State.readBytes_length]; omega), if_pos (Nat.zero_le _), Nat.sub_zero,
    List.getD_eq_default _ _ (by rw [State.readBytes_length]; omega)]

/-- Loading registers leaves `pc`. -/
@[simp] theorem State.setRegs_pc (s : State) (r : Nat) (bs : List Byte) : (s.setRegs r bs).pc = s.pc := by
  rw [State.setRegs_eq]

/-- A block load, then `pc + 2`, changes nothing but the loaded registers and `pc`. -/
theorem State.advance_setRegs_readBytes_frame (s : State) (a : Nat) (x : Reg) :
    State.Frame (fun r => r.toNat ≤ x.toNat) [] s (s.setRegs 0 (s.readBytes a (x.toNat + 1))).advance := by
  rw [State.setRegs_eq]
  exact State.advance_setV_frame fun r hr => s.reg_setRegs_readBytes_above a (Nat.not_le.mp hr)

/-! ## The obligations in range -/

/-- Settles O44: the three bytes are the digits and every other byte is outside the block. -/
theorem decimalDigitsResult : Obligations.DecimalDigitsResult := by
  intro s x h
  obtain ⟨hundreds, tens, ones⟩ := s.readByte_storeBytes_decimalDigits s.i.toNat (s.reg x)
  exact ⟨_, exec_ldB_of_le x h, hundreds, tens, ones, s.readByte_storeBytes_outside _ (decimalDigits (s.reg x)),
    rfl, s.advance_storeBytes_frame _ _⟩

/-- Settles O45: the bytes are the registers in order and every other byte is outside the block. -/
theorem storeRegistersResult : Obligations.StoreRegistersResult := by
  intro s x h
  refine ⟨_, exec_storeRegs_of_le x h, fun r hr => s.readByte_storeBytes_regsUpTo _ hr, fun a ha => ?outside, rfl,
    s.advance_storeBytes_frame _ _⟩
  case outside =>
    exact s.readByte_storeBytes_outside _ _ a (by rw [State.regsUpTo_length]; omega)

/-- Settles O46: the registers are the bytes in order and the load writes no other register. -/
theorem loadRegistersResult : Obligations.LoadRegistersResult := by
  intro s x h
  exact ⟨_, exec_loadRegs_of_le x h, fun r hr => s.reg_setRegs_readBytes _ hr, by simp,
    s.advance_setRegs_readBytes_frame _ x⟩

/-- Settles O47: what the load reads is what the store wrote, whatever the registers are in between. -/
theorem storeThenLoadRestores : Obligations.StoreThenLoadRestores := by
  intro s x scratch h
  have hload := exec_loadRegs_of_le
    (s := { (s.storeBytes s.i.toNat (s.regsUpTo x)).advance with v := scratch }) x h
  refine ⟨_, _, exec_storeRegs_of_le x h, hload, fun r hr => ?restored, fun r hr => ?kept⟩
  case restored =>
    exact (State.reg_setRegs_readBytes _ _ hr).trans (s.readByte_storeBytes_regsUpTo s.i.toNat hr)
  case kept => exact State.reg_setRegs_readBytes_above _ _ hr

/-! ## A store and the next fetch (R53) -/

/-- The high byte of the fetched word is the byte at `pc`. -/
theorem State.fetchWord_high (s : State) : s.fetchWord.extractLsb' 8 8 = s.readByte s.pc.toNat :=
  highByte_wordOfBytes _ _

/-- The low byte of the fetched word is the byte after it. -/
theorem State.fetchWord_low (s : State) : s.fetchWord.extractLsb' 0 8 = s.readByte (s.pc.toNat + 1) :=
  lowByte_wordOfBytes _ _

/-- Settles O49: the fetch reads the two bytes the store wrote. -/
theorem storeIsSeenByTheNextFetch : Obligations.StoreIsSeenByTheNextFetch := by
  refine ⟨fun s x r a h hr ha => ?registers, fun s x a h => ?digits⟩
  case registers =>
    have hr1 : (r + 1#4).toNat = r.toNat + 1 := by have := x.isLt; bv_omega
    refine ⟨_, exec_storeRegs_of_le x h, ?high, ?low⟩
    case high =>
      rw [State.fetchWord_high, ha]
      exact s.readByte_storeBytes_regsUpTo _ (by omega)
    case low =>
      rw [State.fetchWord_low, ha, Nat.add_assoc, ← hr1]
      exact s.readByte_storeBytes_regsUpTo _ (by omega)
  case digits =>
    obtain ⟨hundreds, tens, ones⟩ := s.readByte_storeBytes_decimalDigits s.i.toNat (s.reg x)
    refine ⟨_, exec_ldB_of_le x h, fun ha => ?first, fun ha => ?second⟩
    case first =>
      rw [State.fetchWord_high, State.fetchWord_low, ha]
      exact ⟨hundreds, tens⟩
    case second =>
      rw [State.fetchWord_high, State.fetchWord_low, ha]
      exact ⟨tens, ones⟩

end Sys2Proof.Machine
end

section
/-! PROOFS. Keys, timers and the random byte (R140 to R147). -/

namespace Sys2Proof.Machine

variable {s : State}

/-! ## The meanings -/

/-- `Ex9E` is a skip on a held key, if there is such a key (R140). -/
theorem exec_skp (x : Reg) (s : State) : exec (.skp x) s =
    .next (s.withKey (s.reg x) (.skp x) (s.skipIf (s.keyHeld (s.reg x)))) := rfl

/-- `ExA1` is a skip on a key not held, if there is such a key (R141). -/
theorem exec_sknp (x : Reg) (s : State) : exec (.sknp x) s =
    .next (s.withKey (s.reg x) (.sknp x) (s.skipIf (!s.keyHeld (s.reg x)))) := rfl

/-- `Fx07` writes the delay timer to `Vx` (R143). -/
theorem exec_ldVxDt (x : Reg) (s : State) : exec (.ldVxDt x) s = .next (s.setReg x s.dt).advance := rfl

/-- `Fx15` writes `Vx` to the delay timer (R144). -/
theorem exec_ldDtVx (x : Reg) (s : State) : exec (.ldDtVx x) s = .next { s with dt := s.reg x }.advance := rfl

/-- `Cxnn` writes the next random byte under the mask and uses it up (R146). -/
theorem exec_rnd (x : Reg) (nn : Byte) (s : State) : exec (.rnd x nn) s =
    .next { s.setReg x (Config.rand s.draws &&& nn) with draws := s.draws + 1 }.advance := rfl

/-- `Fx0A` with no key held does nothing (R142). -/
theorem exec_ldVxK_of_none (x : Reg) (h : s.lowestKey = none) : exec (.ldVxK x) s = .next s := by
  simp [exec, execLdVxK, h]

/-- `Fx0A` with a key held writes the lowest one (R142, R147). -/
theorem exec_ldVxK_of_some (x : Reg) {k : Nat} (h : s.lowestKey = some k) :
    exec (.ldVxK x) s = .next (s.setReg x (BitVec.ofNat 8 k)).advance := by
  simp [exec, execLdVxK, h]

/-! ## Frames -/

/-- A write of the delay timer, then `pc + 2`, changes nothing else. -/
theorem State.advance_setDt_frame (s : State) (b : Byte) : State.Frame noReg [.dt] s { s with dt := b }.advance := by
  simp [State.Frame, State.reg, State.readByte]

/-- A write of the sound timer, then `pc + 2`, changes nothing else. -/
theorem State.advance_setSt_frame (s : State) (b : Byte) : State.Frame noReg [.st] s { s with st := b }.advance := by
  simp [State.Frame, State.reg, State.readByte]

/-- A register write that uses up a random byte, then `pc + 2`, changes nothing else. -/
theorem State.advance_setReg_setDraws_frame (s : State) (x : Reg) (b : Byte) (d : Nat) :
    State.Frame (onlyReg x) [.draws] s { s.setReg x b with draws := d }.advance := by
  have hregs : ∀ r, ¬ onlyReg x r → { s.setReg x b with draws := d }.reg r = s.reg r := fun _ hr =>
    s.reg_setReg_other b hr
  simpa [State.Frame, State.readByte] using hregs

/-! ## The key skips -/

/-- A key skip on a key number in range has its effect. -/
theorem State.withKey_of_le {k : Byte} (i : Instr) (e : State) (h : k.toNat ≤ 15) : s.withKey k i e = e := if_pos h

/-- A key skip on a number above 15 halts with that number, and nothing else changes (decision D12). -/
theorem State.withKey_of_gt {k : Byte} (i : Instr) (e : State) (h : 15 < k.toNat) : s.withKey k i e =
    s.haltedWith (.outOfBounds .keyIndex (BitVec.ofNat 16 k.toNat) (some (encode i)) s.pc) := by
  rw [BitVec.ofNat_toNat]
  exact if_neg (Nat.not_le.mpr h)

/-- Settles O54: the key number is in range, and the condition is the key's bit. -/
theorem keySkipResult : Obligations.KeySkipResult := by
  intro s x h
  refine ⟨⟨_, ?skp, s.skipIf_frame (s.keyHeld (s.reg x)), rfl⟩,
    ⟨_, ?sknp, s.skipIf_frame (!s.keyHeld (s.reg x)), ?sknpPc⟩⟩
  case skp => rw [exec_skp, State.withKey_of_le _ _ h]
  case sknp => rw [exec_sknp, State.withKey_of_le _ _ h]
  case sknpPc => cases hk : s.keys.getLsbD (s.reg x).toNat <;> simp [State.keyHeld, hk]

/-- Settles O55: the check of the key number comes first. -/
theorem keyIndexAboveFifteenHalts : Obligations.KeyIndexAboveFifteenHalts := by
  intro s x h
  refine ⟨?skp, ?sknp⟩
  case skp => rw [exec_skp, State.withKey_of_gt _ _ h]; rfl
  case sknp => rw [exec_sknp, State.withKey_of_gt _ _ h]; rfl

/-! ## The key wait -/

/-- With no key held there is no lowest one. -/
theorem State.lowestKey_eq_none (h : ∀ j, j < 16 → s.keys.getLsbD j = false) : s.lowestKey = none := by
  rcases s.lowestKey_cases with ⟨hnone, -⟩ | ⟨k, -, hk, hheld, -⟩
  · exact hnone
  · rw [h k hk] at hheld
    cases hheld

/-- A held key below which none is held is the lowest one. -/
theorem State.lowestKey_eq_some {k : Nat} (hk : k < 16) (hheld : s.keys.getLsbD k = true)
    (hlow : ∀ j, j < k → s.keys.getLsbD j = false) : s.lowestKey = some k := by
  rcases s.lowestKey_cases with ⟨-, hnone⟩ | ⟨j, hj, -, hjheld, hjlow⟩
  · rw [hnone k hk] at hheld
    cases hheld
  · rcases Nat.lt_trichotomy j k with hlt | rfl | hgt
    · rw [hlow j hlt] at hjheld
      cases hjheld
    · exact hj
    · rw [hjlow k hgt] at hheld
      cases hheld

/-- Settles O56: the wait ends with the lowest held key, whose index fits a byte. -/
theorem keyWaitResult : Obligations.KeyWaitResult := by
  intro s x
  refine ⟨fun hnone => exec_ldVxK_of_none x (State.lowestKey_eq_none hnone), fun k hk hheld hlow => ?_⟩
  refine ⟨_, exec_ldVxK_of_some x (State.lowestKey_eq_some hk hheld hlow), ?index, rfl, s.advance_setReg_frame x _⟩
  case index => simp; omega

/-! ## Timers and the random byte -/

/-- Settles O57: each is one write, and the sound signal is that of the new sound timer. -/
theorem timerAccessResult : Obligations.TimerAccessResult := by
  intro s x
  refine ⟨⟨_, exec_ldVxDt x s, s.reg_setReg_same x s.dt, rfl, s.advance_setReg_frame x _⟩,
    ⟨_, exec_ldDtVx x s, rfl, rfl, s.advance_setDt_frame _⟩,
    ⟨_, exec_ldStVx x s, rfl, State.soundActive_iff _, rfl, s.advance_setSt_frame _⟩⟩

/-- Settles O58: a bit that the mask has clear is clear in the AND, whatever the byte is. -/
theorem randomByteResult : Obligations.RandomByteResult := by
  intro s x nn
  have hreg : (s.setReg x (Config.rand s.draws &&& nn)).reg x = Config.rand s.draws &&& nn := s.reg_setReg_same x _
  refine ⟨_, exec_rnd x nn s, hreg, fun b hb => ?clear, rfl, rfl, s.advance_setReg_setDraws_frame x _ _⟩
  case clear =>
    refine (congrArg (·.getLsbD b) hreg).trans ?_
    simp [hb]

end Sys2Proof.Machine
end

section
/-! PROOFS. The draw (R132 to R135): what it leaves, pixel by pixel, and what follows for a sprite drawn twice and for
one that is off the screen. -/

namespace Sys2Proof.Machine

variable {s t : State}

/-! ## The display, pixel by pixel -/

/-- Two displays with the same pixels are equal (R19). -/
theorem State.disp_ext (h : ∀ px py, px ≤ 63 → py ≤ 31 → t.pixel px py = s.pixel px py) : t.disp = s.disp := by
  apply BitVec.eq_of_getLsbD_eq
  intro k hk
  have hindex : pixelIndex (k % 64) (k / 64) = k := Nat.mod_add_div k 64
  have hpixel := h (k % 64) (k / 64) (by omega) (by omega)
  rwa [State.pixel, State.pixel, hindex] at hpixel

/-- The sprite's bits depend on the coordinates, the address and the bytes alone. -/
theorem State.spriteBit_congr {x y : Reg} (n : Nibble) (hx : t.reg x = s.reg x) (hy : t.reg y = s.reg y)
    (hi : t.i = s.i) (hbytes : ∀ a, t.readByte a = s.readByte a) (px py : Nat) :
    t.spriteBit x y n px py = s.spriteBit x y n px py := by
  simp only [State.spriteBit, hx, hy, hi, hbytes]

/-- A sprite whose origin is off the screen, or that has no row, has no bit on the screen (R134). -/
theorem State.spriteBit_eq_false {x y : Reg} {n : Nibble}
    (hoff : 64 ≤ (s.reg x).toNat ∨ 32 ≤ (s.reg y).toNat ∨ n = 0#4) {px py : Nat} (hx : px ≤ 63) (hy : py ≤ 31) :
    s.spriteBit x y n px py = false := by
  rw [Bool.eq_false_iff]
  simp only [State.spriteBit, ne_eq, Bool.and_eq_true, decide_eq_true_eq]
  rintro ⟨⟨⟨⟨hx0, -⟩, hy0⟩, hy1⟩, -⟩
  rcases hoff with hoff | hoff | rfl
  · omega
  · omega
  · simp at hy1
    omega

/-! ## The draw -/

/-- `Dxyn` with its bytes in range, or with no row, draws. -/
theorem exec_drw_of_le (x y : Reg) {n : Nibble} (h : n = 0#4 ∨ s.i.toNat + n.toNat ≤ 4096) :
    exec (.drw x y n) s = .next (s.drawSprite x y n) := by
  have hrange : n.toNat = 0 ∨ s.i.toNat + n.toNat ≤ 4096 := h.imp_left (fun hn => by simp [hn])
  rw [exec_drw, State.withRange_of_le _ _ _ hrange]

/-- A write of the flag and the display, then `pc + 2`, changes nothing else. -/
theorem State.setFlag_setDisp_frame (s : State) (f : Byte) (d : Screen) (pc : Word) :
    State.Frame (onlyReg State.vf) [.disp] s { s.setReg State.vf f with disp := d, pc := pc } := by
  have hregs : ∀ r, ¬ onlyReg State.vf r → { s.setReg State.vf f with disp := d, pc := pc }.reg r = s.reg r :=
    fun _ hr => s.reg_setReg_other f hr
  simpa [State.Frame, State.readByte] using hregs

/-- A draw changes nothing but the flag, the display and `pc`. -/
theorem State.drawSprite_frame (s : State) (x y : Reg) (n : Nibble) :
    State.Frame (onlyReg State.vf) [.disp] s (s.drawSprite x y n) :=
  s.setFlag_setDisp_frame _ _ _

/-- A flag is 1 exactly when its condition holds. -/
theorem flagByte_eq_one_iff (b : Bool) : flagByte b = 1#8 ↔ b = true := by cases b <;> decide

/-- A flag is 1 or 0 (R11). -/
theorem flagByte_cases (b : Bool) : flagByte b = 1#8 ∨ flagByte b = 0#8 := by cases b <;> decide

/-- Settles O51: the rows of a draw draw the sprite's bits, with the collision flag of the accumulator. -/
theorem drawResult : Obligations.DrawResult := by
  intro s x y n hrange
  obtain ⟨c, hdraws, hsprite⟩ := s.drawSprite_spec x y n
  obtain ⟨hpixel, hhit⟩ := hdraws.congr (b' := s.spriteBit x y n) (s.rowBits_readBytes _ _ _)
  have hframe := s.drawSprite_frame x y n
  have hexec := exec_drw_of_le x y hrange
  rw [hsprite] at hframe hexec
  have hvf : (s.setReg State.vf (flagByte c.hit)).reg State.vf = flagByte c.hit := s.reg_setReg_same _ _
  refine ⟨_, hexec, hpixel, ?flag, ?collision, rfl, hframe⟩
  case flag => exact (flagByte_cases c.hit).imp hvf.trans hvf.trans
  case collision =>
    have hone := (flagByte_eq_one_iff c.hit).trans hhit
    simp only [Bool.false_eq_true, false_or] at hone
    exact (Eq.congr_left hvf).trans hone

/-- Settles O52: the second draw has the same bits, so each pixel is XORed twice with the same bit. -/
theorem drawingTwiceRestoresTheDisplay : Obligations.DrawingTwiceRestoresTheDisplay := by
  intro s x y n hx hy hrange
  obtain ⟨t, ht, htpixel, -, -, -, hregs, hi, -, -, -, -, hbytes, -⟩ := drawResult s x y n hrange
  have hti : t.i = s.i := hi (by decide)
  obtain ⟨u, hu, hupixel, -, huflag, -, -⟩ := drawResult t x y n (hti ▸ hrange)
  have hsame : ∀ px py, t.spriteBit x y n px py = s.spriteBit x y n px py :=
    State.spriteBit_congr n (hregs x hx) (hregs y hy) hti (hbytes (by decide))
  refine ⟨t, u, ht, hu, State.disp_ext fun px py hpx hpy => ?restored, huflag.trans ?relit⟩
  case restored =>
    rw [hupixel px py hpx hpy, htpixel px py hpx hpy, hsame, Bool.xor_assoc, Bool.xor_self, Bool.xor_false]
  case relit =>
    refine exists_congr fun px => exists_congr fun py => and_congr_right fun hpx => and_congr_right fun hpy => ?_
    rw [htpixel px py hpx hpy, hsame]
    cases s.spriteBit x y n px py <;> simp

/-- What a draw leaves when the display is as before. -/
theorem State.Frame.of_disp_eq {regs : Reg → Prop} (h : State.Frame regs [.disp] s t) (hd : t.disp = s.disp) :
    State.Frame regs [] s t := by
  simpa [State.Frame, hd] using h

/-- Settles O53: with no bit on the screen there is nothing to XOR and nothing to collide. -/
theorem offScreenSpriteDrawsNothing : Obligations.OffScreenSpriteDrawsNothing := by
  intro s x y n hrange hoff
  obtain ⟨t, ht, hpixel, hvf, hflag, hpc, hframe⟩ := drawResult s x y n hrange
  have hdisp : t.disp = s.disp := State.disp_ext fun px py hpx hpy => by
    rw [hpixel px py hpx hpy, State.spriteBit_eq_false hoff hpx hpy, Bool.xor_false]
  have hnone : t.reg State.vf ≠ 1#8 := by
    rw [ne_eq, hflag]
    rintro ⟨px, py, hpx, hpy, -, hbit⟩
    rw [State.spriteBit_eq_false hoff hpx hpy] at hbit
    cases hbit
  exact ⟨t, ht, hdisp, hvf.resolve_left hnone, hpc, hframe.of_disp_eq hdisp⟩

end Sys2Proof.Machine
end

section
/-! PROOFS. The canonical form of memory: it is determined by what is read. -/

namespace Sys2Proof.Machine

/-- The first address of a memory reads as its entry. -/
theorem Memory.read_cons_self (p : Platform) (a : Nat) (v : Byte) (m : Memory) : Memory.read p ((a, v) :: m) a = v :=
  if_pos rfl

/-- Two memories whose first addresses differ read differently at the lower one. -/
theorem Memory.read_ne_of_lt {p : Platform} {lo a b : Nat} {v w : Byte} {m m' : Memory} (hab : a < b)
    (hm : Memory.wfFrom p lo ((a, v) :: m) = true) (hm' : Memory.wfFrom p lo ((b, w) :: m') = true) :
    Memory.read p ((a, v) :: m) a ≠ Memory.read p ((b, w) :: m') a := by
  obtain ⟨-, -, hv, -⟩ := (Memory.wfFrom_cons p).mp hm
  obtain ⟨-, hrest⟩ := (Memory.wfFrom_cons p).mp hm'
  have hbelow : Memory.read p ((b, w) :: m') a = Memory.unlisted p a :=
    Memory.read_below p ((Memory.wfFrom_cons p).mpr ⟨Nat.le_refl b, hrest⟩) hab
  rw [hbelow, Memory.read_cons_self]
  exact hv

/-- A memory with a first entry does not read as one that lists nothing. -/
theorem Memory.read_head_ne_unlisted {p : Platform} {lo a : Nat} {v : Byte} {m : Memory}
    (hm : Memory.wfFrom p lo ((a, v) :: m) = true) : Memory.read p ((a, v) :: m) a ≠ Memory.read p [] a := by
  obtain ⟨-, -, hv, -⟩ := (Memory.wfFrom_cons p).mp hm
  rw [Memory.read_cons_self]
  exact hv

/-- Two canonical memories that read alike list the same entries: the first entries have the same address, since the
lower one would be read from one memory alone, and the rest reads alike. -/
theorem Memory.eq_of_read_eq {p : Platform} {lo : Nat} {m m' : Memory} (hm : Memory.wfFrom p lo m = true)
    (hm' : Memory.wfFrom p lo m' = true) (hread : ∀ a, Memory.read p m a = Memory.read p m' a) : m = m' := by
  induction m generalizing lo m' with
  | nil =>
    cases m' with
    | nil => rfl
    | cons c' m' => exact absurd (hread c'.1).symm (Memory.read_head_ne_unlisted hm')
  | cons c m ih =>
    obtain ⟨a, v⟩ := c
    cases m' with
    | nil => exact absurd (hread a) (Memory.read_head_ne_unlisted hm)
    | cons c' m' =>
      obtain ⟨b, w⟩ := c'
      rcases Nat.lt_trichotomy a b with hlt | rfl | hgt
      · exact absurd (hread a) (Memory.read_ne_of_lt hlt hm hm')
      · obtain ⟨-, -, -, htail⟩ := (Memory.wfFrom_cons p).mp hm
        obtain ⟨-, -, -, htail'⟩ := (Memory.wfFrom_cons p).mp hm'
        have hvw : v = w := by simpa [Memory.read] using hread a
        have hrest : ∀ d, Memory.read p m d = Memory.read p m' d := by
          intro d
          by_cases hd : d = a
          · rw [hd, Memory.read_below p htail (Nat.lt_succ_self a), Memory.read_below p htail' (Nat.lt_succ_self a)]
          · simpa [Memory.read, hd] using hread d
        rw [hvw, ih htail htail' hrest]
      · exact absurd (hread b).symm (Memory.read_ne_of_lt hgt hm' hm)

/-- Settles O22: canonical is canonical from address 0 on. -/
theorem memoriesThatReadAlikeAreEqual : Obligations.MemoriesThatReadAlikeAreEqual :=
  fun _ _ _ hm hm' hread => Memory.eq_of_read_eq hm hm' hread

end Sys2Proof.Machine
end

section
/-! PROOFS. What an instruction can do, said once for all 34 (R84 to R87): it completes and writes what its row of the
access matrix gives it, or it halts the block and writes `run` and `fault`, or `SP` is above 16. -/

namespace Sys2Proof.Machine

variable {i : Instr} {s t : State}

/-! ## The outcomes of an instruction -/

/-- Going from `s` to `t` moves `pc` as its class says (R85). -/
def PcClass.Moves (s t : State) : PcClass → Prop
  | .sequential => t.pc = s.pc + 2#16
  | .skip => t.pc = s.pc + 4#16 ∨ t.pc = s.pc + 2#16
  | .wait => (t.pc = s.pc ∧ s.keys = 0#16) ∨ (t.pc = s.pc + 2#16 ∧ s.keys ≠ 0#16)
  | .absolute nnn => t.pc.toNat = nnn.toNat
  | .indexed nnn => t.pc.toNat = nnn.toNat + (s.reg 0#4).toNat
  | .ret => 1 ≤ s.sp.toNat ∧ s.stack[s.sp.toNat - 1]? = some t.pc

/-- What going from `s` to `t` does to `SP` and the stack: nothing, the push of `2nnn` or the pop of `00EE` (R90,
R92). -/
inductive StackEffect (s t : State) : Instr → Prop where
  | none {i : Instr} (sp : t.sp = s.sp) (stack : t.stack = s.stack) : StackEffect s t i
  | push (nnn : Addr) (free : s.sp.toNat < 16) (sp : t.sp = s.sp + 1#8)
      (stack : t.stack = s.stack.set s.sp.toNat (s.pc + 2#16)) : StackEffect s t (.call nnn)
  | pop (live : 1 ≤ s.sp.toNat) (sp : t.sp = s.sp - 1#8) (stack : t.stack = s.stack) : StackEffect s t .ret

/-- What going from `s` to `t` does to memory: nothing, or the store of the instruction's bytes from `I` on, in
range. -/
inductive MemEffect (s t : State) (i : Instr) : Prop where
  | none (mem : t.mem = s.mem)
  | store (bytes : List Byte) (length : bytes.length = storeCount i) (inRange : s.i.toNat + storeCount i ≤ 4096)
      (mem : t.mem = (s.storeBytes s.i.toNat bytes).mem)

/-- The instruction completes: its frame, the move of `pc`, and its effects on stack and memory. -/
structure Completes (i : Instr) (s t : State) : Prop where
  frame : State.Frame (mayWriteReg i) (mayWrite i) s t
  pc : (pcClass i).Moves s t
  stack : StackEffect s t i
  mem : MemEffect s t i

/-- The three outcomes of an instruction. -/
inductive ExecOutcome (i : Instr) (s : State) : Prop where
  | completes (t : State) (exec_eq : exec i s = .next t) (completed : Completes i s t)
  | raises (c : Cause) (a : Word) (raised : raisedBy c i = true)
      (exec_eq : exec i s = .next (s.haltedWith (.outOfBounds c a (some (encode i)) s.pc)))
  | stops (illegal : 16 < s.sp.toNat) (exec_eq : exec i s = .fault (.stackPointer s.sp))

/-- An instruction that leaves memory and stack alone. -/
theorem ExecOutcome.of_frame (exec_eq : exec i s = .next t) (frame : State.Frame (mayWriteReg i) (mayWrite i) s t)
    (pc : (pcClass i).Moves s t) (mem : t.mem = s.mem := by rfl) (sp : t.sp = s.sp := by rfl)
    (stack : t.stack = s.stack := by rfl) : ExecOutcome i s :=
  .completes t exec_eq ⟨frame, pc, .none sp stack, .none mem⟩

/-- An instruction with a bounds check completes or raises. -/
theorem ExecOutcome.of_withRange {n : Nat} {c : Cause} (exec_eq : exec i s = .next (s.withRange n c i t))
    (raised : raisedBy c i = true) (completed : n = 0 ∨ s.i.toNat + n ≤ 4096 → Completes i s t) : ExecOutcome i s := by
  rcases s.withRange_cases n c i t with ⟨hin, heq⟩ | ⟨-, heq⟩
  · exact .completes t (heq ▸ exec_eq) (completed ((s.inRange_iff n).mp hin))
  · exact .raises c _ raised (heq ▸ exec_eq)

/-- A skip moves `pc` as skips do. -/
theorem State.skipIf_moves (s : State) (c : Bool) : PcClass.skip.Moves s (s.skipIf c) := by
  cases c
  · exact .inr rfl
  · exact .inl rfl

/-- A skip on a key completes or raises. -/
theorem ExecOutcome.of_withKey {k : Byte} {c : Bool} (exec_eq : exec i s = .next (s.withKey k i (s.skipIf c)))
    (raised : raisedBy .keyIndex i = true) (frame : State.Frame (mayWriteReg i) (mayWrite i) s (s.skipIf c))
    (skips : pcClass i = .skip) : ExecOutcome i s := by
  rcases s.withKey_cases k i (s.skipIf c) with ⟨-, heq⟩ | ⟨-, heq⟩
  · exact .of_frame (heq ▸ exec_eq) frame (skips ▸ s.skipIf_moves c)
  · exact .raises .keyIndex _ raised (heq ▸ exec_eq)

/-! ## The instructions with cases of their own -/

/-- `00EE` raises, pops or stops. -/
theorem execOutcome_ret (s : State) : ExecOutcome .ret s := by
  rcases execRet_cases s with ⟨-, heq⟩ | ⟨h1, -, hlt, heq⟩ | ⟨hbig, heq⟩
  · exact .raises .stackUnderflow _ rfl heq
  · exact .completes _ heq
      ⟨s.setSp_frame _ _, ⟨h1, Vector.getElem?_eq_getElem hlt⟩, .pop h1 rfl rfl, .none rfl⟩
  · exact .stops hbig heq

/-- `2nnn` raises, pushes or stops. -/
theorem execOutcome_call (nnn : Addr) (s : State) : ExecOutcome (.call nnn) s := by
  rcases execCall_cases s nnn with ⟨-, heq⟩ | ⟨hfree, heq⟩ | ⟨hbig, heq⟩
  · exact .raises .stackOverflow _ rfl heq
  · exact .completes _ heq
      ⟨s.setStack_frame _ _ _, zextAddr_toNat nnn, .push nnn hfree rfl rfl, .none rfl⟩
  · exact .stops hbig heq

/-- A snapshot with a held key is not 0. -/
theorem keys_ne_zero_of_held {k : Nat} (h : s.keys.getLsbD k = true) : s.keys ≠ 0#16 := by
  intro hzero
  simp [hzero] at h

/-- A snapshot with no held key is 0. -/
theorem keys_eq_zero_of_none (h : ∀ j, j < 16 → s.keys.getLsbD j = false) : s.keys = 0#16 :=
  BitVec.eq_of_getLsbD_eq fun j hj => (h j hj).trans BitVec.getLsbD_zero.symm

/-- What does nothing has every frame. -/
theorem State.frame_unchanged (regs : Reg → Prop) (parts : List Part) (s : State) : State.Frame regs parts s s := by
  simp [State.Frame]

/-- `Fx0A` waits or loads a key. -/
theorem execOutcome_ldVxK (x : Reg) (s : State) : ExecOutcome (.ldVxK x) s := by
  rcases s.lowestKey_cases with ⟨hnone, hkeys⟩ | ⟨k, hsome, -, hheld, -⟩
  · exact .of_frame (exec_ldVxK_of_none x hnone) (State.frame_unchanged _ _ s) (.inl ⟨rfl, keys_eq_zero_of_none hkeys⟩)
  · exact .of_frame (exec_ldVxK_of_some x hsome) (s.advance_setReg_frame x _) (.inr ⟨rfl, keys_ne_zero_of_held hheld⟩)

/-- Loading registers changes nothing but registers: memory, stack and `SP` stay. -/
theorem execOutcome_loadRegs (x : Reg) (s : State) : ExecOutcome (.loadRegs x) s := by
  refine .of_withRange (exec_loadRegs x s) rfl fun _ => ⟨s.advance_setRegs_readBytes_frame _ x, ?_, ?_, ?_⟩
  all_goals rw [State.setRegs_eq]
  · exact rfl
  · exact .none rfl rfl
  · exact .none rfl

/-! ## All instructions -/

/-- Every instruction has one of the three outcomes. -/
theorem execOutcome (i : Instr) (s : State) : ExecOutcome i s := by
  cases i with
  | cls => exact .of_frame (exec_cls s) (s.advance_setDisp_frame _) rfl
  | ret => exact execOutcome_ret s
  | jp nnn => exact .of_frame (exec_jp nnn s) (s.jumpTo_frame _) (zextAddr_toNat nnn)
  | call nnn => exact execOutcome_call nnn s
  | seImm x nn => exact .of_frame (exec_seImm x nn s) (s.skipIf_frame _) (s.skipIf_moves _)
  | sneImm x nn => exact .of_frame (exec_sneImm x nn s) (s.skipIf_frame _) (s.skipIf_moves _)
  | seReg x y => exact .of_frame (exec_seReg x y s) (s.skipIf_frame _) (s.skipIf_moves _)
  | ldImm x nn => exact .of_frame (exec_ldImm x nn s) (s.advance_setReg_frame x _) rfl
  | addImm x nn => exact .of_frame (exec_addImm x nn s) (s.advance_setReg_frame x _) rfl
  | ldReg x y => exact .of_frame (exec_ldReg x y s) (s.advance_setReg_frame x _) rfl
  | orReg x y => exact .of_frame (exec_orReg x y s) (s.advance_setReg_frame x _) rfl
  | andReg x y => exact .of_frame (exec_andReg x y s) (s.advance_setReg_frame x _) rfl
  | xorReg x y => exact .of_frame (exec_xorReg x y s) (s.advance_setReg_frame x _) rfl
  | addReg x y => exact .of_frame (exec_addReg x y s) (s.advance_setFlag_setReg_frame x _ _) rfl
  | sub x y => exact .of_frame (exec_sub x y s) (s.advance_setFlag_setReg_frame x _ _) rfl
  | shr x y => exact .of_frame (exec_shr x y s) (s.advance_setReg_setFlag_frame x _ _) rfl
  | subn x y => exact .of_frame (exec_subn x y s) (s.advance_setFlag_setReg_frame x _ _) rfl
  | shl x y => exact .of_frame (exec_shl x y s) (s.advance_setReg_setFlag_frame x _ _) rfl
  | sneReg x y => exact .of_frame (exec_sneReg x y s) (s.skipIf_frame _) (s.skipIf_moves _)
  | ldI nnn => exact .of_frame (exec_ldI nnn s) (s.advance_setI_frame _) rfl
  | jpV0 nnn => exact .of_frame (exec_jpV0 nnn s) (s.jumpTo_frame _) (zextAddr_add_zextByte_toNat nnn _)
  | rnd x nn => exact .of_frame (exec_rnd x nn s) (s.advance_setReg_setDraws_frame x _ _) rfl
  | drw x y n =>
    exact .of_withRange (exec_drw x y n s) rfl fun _ => ⟨s.drawSprite_frame x y n, rfl, .none rfl rfl, .none rfl⟩
  | skp x => exact .of_withKey (exec_skp x s) rfl (s.skipIf_frame _) rfl
  | sknp x => exact .of_withKey (exec_sknp x s) rfl (s.skipIf_frame _) rfl
  | ldVxDt x => exact .of_frame (exec_ldVxDt x s) (s.advance_setReg_frame x _) rfl
  | ldVxK x => exact execOutcome_ldVxK x s
  | ldDtVx x => exact .of_frame (exec_ldDtVx x s) (s.advance_setDt_frame _) rfl
  | ldStVx x => exact .of_frame (exec_ldStVx x s) (s.advance_setSt_frame _) rfl
  | addI x => exact .of_frame (exec_addI x s) (s.advance_setI_frame _) rfl
  | ldF x => exact .of_frame (exec_ldF x s) (s.advance_setI_frame _) rfl
  | ldB x =>
    exact .of_withRange (exec_ldB x s) rfl fun h =>
      ⟨s.advance_storeBytes_frame _ _, rfl, .none rfl rfl, .store _ rfl (h.resolve_left (by decide)) rfl⟩
  | storeRegs x =>
    exact .of_withRange (exec_storeRegs x s) rfl fun h =>
      ⟨s.advance_storeBytes_frame _ _, rfl, .none rfl rfl,
        .store _ (s.regsUpTo_length x) (h.resolve_left (Nat.succ_ne_zero _)) rfl⟩
  | loadRegs x => exact execOutcome_loadRegs x s

/-! ## What the outcomes say of a next state -/

/-- What every instruction that completes leaves. -/
theorem State.Frame.rest {regs : Reg → Prop} {parts : List Part} (h : State.Frame regs parts s t) :
    t.keys = s.keys ∧ t.run = s.run ∧ t.fault = s.fault ∧ t.platform = s.platform ∧ t.pending = s.pending := by
  obtain ⟨-, -, -, -, -, -, -, -, -, hrest⟩ := h
  exact hrest

/-- An instruction that completes leaves `run`. -/
theorem Completes.run (h : Completes i s t) : t.run = s.run := by
  obtain ⟨-, hrun, -, -, -⟩ := h.frame.rest
  exact hrun

/-- A next state of a running block that still runs is that of an instruction that completes. -/
theorem completes_of_running (hexec : exec i s = .next t) (hrun : t.run = .running) : Completes i s t := by
  rcases execOutcome i s with ⟨t', heq, hdone⟩ | ⟨c, a, -, heq⟩ | ⟨-, heq⟩
  · cases heq.symm.trans hexec
    exact hdone
  · cases heq.symm.trans hexec
    cases hrun
  · cases heq.symm.trans hexec

/-- Outside the bytes it stores an instruction that completes leaves memory. -/
theorem Completes.readByte_outside (h : Completes i s t) {a : Nat}
    (ha : a < s.i.toNat ∨ s.i.toNat + storeCount i ≤ a) : t.readByte a = s.readByte a := by
  obtain ⟨-, -, -, hplatform, -⟩ := h.frame.rest
  rcases h.mem with hmem | ⟨bytes, hlen, -, hmem⟩
  · exact State.readByte_congr hmem hplatform a
  · calc t.readByte a = (s.storeBytes s.i.toNat bytes).readByte a := State.readByte_congr hmem hplatform a
      _ = s.readByte a := s.readByte_storeBytes_outside _ _ a (hlen ▸ ha)

/-- Every stack entry that it does not store an instruction that completes leaves. -/
theorem Completes.stack_other (h : Completes i s t) {j : Nat} (hj : storesEntry s i ≠ some j) :
    t.stack[j]? = s.stack[j]? := by
  rcases h.stack with ⟨-, hstack⟩ | ⟨nnn, hfree, -, hstack⟩ | ⟨-, -, hstack⟩
  · rw [hstack]
  · rw [hstack]
    exact Vector.getElem?_set_ne hfree (fun e => hj (congrArg some e))
  · rw [hstack]

/-- Settles O23: an instruction that completes has its frame, and its effects on memory and stack are its own. -/
theorem noInstructionWritesBeyondItsRow : Obligations.NoInstructionWritesBeyondItsRow := by
  intro i s t hexec hsame hrun
  have hdone := completes_of_running hexec (hsame.trans hrun)
  exact ⟨hdone.frame, fun _ => hdone.readByte_outside, fun _ => hdone.stack_other⟩

/-- Settles O24: an instruction that completes leaves the block running, so the one that halts it is the one that
raises. -/
theorem fatalErrorsArePrecise : Obligations.FatalErrorsArePrecise := by
  intro i s t hrun hexec hhalt
  rcases execOutcome i s with ⟨t', heq, hdone⟩ | ⟨c, a, hraised, heq⟩ | ⟨-, heq⟩
  · cases heq.symm.trans hexec
    cases hhalt.symm.trans (hdone.run.trans hrun)
  · cases heq.symm.trans hexec
    exact ⟨c, a, hraised, rfl⟩
  · cases heq.symm.trans hexec

/-- Settles O25: an instruction that completes moves `pc` as its class says. -/
theorem nextPcByClass : Obligations.NextPcByClass := by
  intro i s t _ hexec hrun
  have hpc := (completes_of_running hexec hrun).pc
  cases hclass : pcClass i with
  | ret =>
    rw [hclass] at hpc
    obtain ⟨-, hpop⟩ := hpc
    exact hpop
  | _ =>
    rw [hclass] at hpc
    exact hpc

end Sys2Proof.Machine
end

section
/-! PROOFS. The invariant (R13, R14, R21, R90, R182): it holds right after reset, every event keeps it, and with it
only a RESET that is not accepted stops the model. -/

namespace Sys2Proof.Machine

variable {i : Instr} {s t : State}

/-! ## Right after reset -/

/-- The values right after a RESET with an accepted platform meet the invariant. -/
theorem State.boot_inv {p : Platform} (k : KeySet) (draws : Nat) (pending : List Event) (hfont : p.wellFormed = true) :
    (State.boot p k draws pending).Inv := by
  refine ⟨?sp, fun j _ hlive => ?stack, ?pc, Memory.wf_nil p, hfont, ?fault⟩
  case sp => exact Nat.zero_le 16
  case stack => exact absurd hlive (Nat.not_lt_zero j)
  case pc => change (0x200#16 : Word).toNat ≤ 0x10FE; decide
  case fault => simp [State.boot]

/-- Settles O19: the default font lies in the reserved range. -/
theorem resetMeetsTheInvariant : Obligations.ResetMeetsTheInvariant := State.boot_inv _ _ _ (by decide)

/-! ## RESET, TICK and the fatal errors keep it -/

/-- An accepted program fits the memory from 0x200 on. -/
theorem State.Inv.load {p : Platform} {prog : List Byte} (s : State) (k : KeySet) (hfont : p.wellFormed = true)
    (hlen : prog.length ≤ 3584) : (s.load p prog k).Inv := by
  obtain ⟨hsp, hstack, hpc, hmem, hwf, hfault⟩ := State.boot_inv (p := p) k s.draws s.pending hfont
  have hfits : Config.progBase.toNat + prog.length ≤ 4096 := by
    have hbase : Config.progBase.toNat = 0x200 := by decide
    omega
  exact ⟨hsp, hstack, hpc, Memory.wf_writeBytes p prog hmem hfits, hwf, hfault⟩

/-- A TICK writes timers and keys alone, of which the invariant does not speak. -/
theorem State.Inv.tick (h : s.Inv) (k : KeySet) : (s.tick k).Inv := by
  unfold State.tick
  split
  · exact h
  · exact h

/-- A fatal error halts the block and leaves a record. -/
theorem State.Inv.raise (h : s.Inv) (r : FaultRecord) : (s.raise r).Inv := by
  obtain ⟨hsp, hstack, hpc, hmem, hwf, -⟩ := h
  exact ⟨hsp, hstack, hpc, hmem, hwf, by simp⟩

/-! ## An instruction that completes keeps it -/

/-- `SP` stays at most 16: a push needs a free entry. -/
theorem StackEffect.sp_le (h : StackEffect s t i) (hsp : s.sp.toNat ≤ 16) : t.sp.toNat ≤ 16 := by
  cases h with
  | none htsp _ => rwa [htsp]
  | push nnn hfree htsp _ =>
    rw [htsp, toNat_add_one_byte (by omega)]
    omega
  | pop hlive htsp _ =>
    rw [htsp, toNat_sub_one_byte hlive]
    omega

/-- Live entries stay sound: the one a push adds is the address after a fetched one. -/
theorem StackEffect.stackSound (h : StackEffect s t i) (hf : s.fetchable = true) (hs : s.StackSound) :
    t.StackSound := by
  intro j hj hlive
  cases h with
  | none htsp htstack =>
    rw [htsp] at hlive
    simpa only [htstack] using hs j hj hlive
  | push nnn hfree htsp htstack =>
    rw [htsp, toNat_add_one_byte (by omega)] at hlive
    simp only [htstack]
    rcases Nat.lt_or_ge j s.sp.toNat with hlt | hge
    · rw [Vector.getElem_set_ne hfree hj (by omega)]
      exact hs j hj hlt
    · obtain ⟨heven, hlo, hhi⟩ := s.fetchable_iff.mp hf
      have hsum : (s.pc + 2#16).toNat = s.pc.toNat + 2 := by bv_omega
      obtain rfl : j = s.sp.toNat := by omega
      rw [Vector.getElem_set_self, hsum]
      omega
  | pop hlive' htsp htstack =>
    rw [htsp, toNat_sub_one_byte hlive'] at hlive
    simpa only [htstack] using hs j hj (by omega)

/-- The entry a return pops is sound, so at most 0x1000. -/
theorem State.StackSound.popped_le (hs : s.StackSound) (hlive : 1 ≤ s.sp.toNat) {a : Word}
    (hpop : s.stack[s.sp.toNat - 1]? = some a) : a.toNat ≤ 0x1000 := by
  obtain ⟨hlt, rfl⟩ := Vector.getElem?_eq_some_iff.mp hpop
  obtain ⟨-, -, hle⟩ := hs _ hlt (by omega)
  exact hle

/-- No class moves a fetched `pc` above 0x10FE, the largest sum of `Bnnn` (R13). -/
theorem PcClass.Moves.pc_le {c : PcClass} (h : c.Moves s t) (hf : s.fetchable = true) (hs : s.StackSound) :
    t.pc.toNat ≤ 0x10FE := by
  obtain ⟨-, -, hhi⟩ := s.fetchable_iff.mp hf
  have hnext : (s.pc + 2#16).toNat ≤ 0x10FE := by bv_omega
  have hskip : (s.pc + 4#16).toNat ≤ 0x10FE := by bv_omega
  cases c with
  | sequential => exact h ▸ hnext
  | skip => exact h.elim (fun e => e ▸ hskip) (fun e => e ▸ hnext)
  | wait =>
    rcases h with ⟨hpc, -⟩ | ⟨hpc, -⟩
    · rw [hpc]; omega
    · exact hpc ▸ hnext
  | absolute nnn =>
    have := nnn.isLt
    simp only [PcClass.Moves] at h
    omega
  | indexed nnn =>
    have := nnn.isLt
    have := (s.reg 0#4).isLt
    simp only [PcClass.Moves] at h
    omega
  | ret =>
    obtain ⟨hlive, hpop⟩ := h
    have hle := hs.popped_le hlive hpop
    omega

/-- The bytes an instruction stores are in range, so memory stays canonical. -/
theorem MemEffect.wf (h : MemEffect s t i) (hwf : Memory.wf s.platform s.mem = true) :
    Memory.wf s.platform t.mem = true := by
  cases h with
  | none htmem => rwa [htmem]
  | store bytes hlen hrange htmem =>
    rw [htmem]
    exact Memory.wf_writeBytes _ _ hwf (hlen ▸ hrange)

/-- An instruction that completes keeps the invariant: each of its effects keeps its part. -/
theorem Completes.inv (h : Completes i s t) (hf : s.fetchable = true) (hinv : s.Inv) : t.Inv := by
  obtain ⟨hsp, hstack, -, hmem, hwf, hfault⟩ := hinv
  obtain ⟨-, hrun, htfault, hplatform, -⟩ := h.frame.rest
  refine ⟨h.stack.sp_le hsp, h.stack.stackSound hf hstack, h.pc.pc_le hf hstack, ?_, ?_, ?_⟩
  · rw [hplatform]
    exact h.mem.wf hmem
  · rwa [hplatform]
  · rwa [hrun, htfault]

/-! ## Every step keeps it -/

/-- An EXEC keeps the invariant. -/
theorem State.Inv.execEvent (h : s.Inv) (hexec : s.execEvent = .next t) : t.Inv := by
  rcases s.execEvent_cases with ⟨-, heq⟩ | ⟨-, -, heq⟩ | ⟨-, -, -, heq⟩ | ⟨i, -, hf, -, heq⟩
  · cases heq.symm.trans hexec
    exact h
  · cases heq.symm.trans hexec
    exact h.raise _
  · cases heq.symm.trans hexec
    exact h.raise _
  · rcases execOutcome i s with ⟨t', hi, hdone⟩ | ⟨c, a, -, hi⟩ | ⟨-, hi⟩
    · cases (heq.trans hi).symm.trans hexec
      exact hdone.inv hf h
    · cases (heq.trans hi).symm.trans hexec
      exact h.raise _
    · cases (heq.trans hi).symm.trans hexec

/-- A RESET leaves the invariant, whatever the state before. -/
theorem State.resetEvent_inv {p : Platform} {prog : Option (List Byte)} {k : KeySet}
    (hreset : s.resetEvent p prog k = .next t) : t.Inv := by
  rcases s.resetEvent_cases p prog k with ⟨bytes, -, hlen, hfont, heq⟩ | ⟨-, heq⟩ | ⟨bytes, -, -, heq⟩ |
    ⟨bytes, -, -, heq⟩
  · cases heq.symm.trans hreset
    exact State.Inv.load s k hfont hlen
  all_goals cases heq.symm.trans hreset

/-- Settles O20: the invariant does not speak of the queue, and each of the three events keeps it. -/
theorem stepKeepsTheInvariant : Obligations.StepKeepsTheInvariant := by
  intro s t hinv hstep
  have htake : s.takeEvent.Inv := hinv
  rcases step_cases s with ⟨-, heq⟩ | ⟨k, -, heq⟩ | ⟨p, prog, k, -, heq⟩
  · exact htake.execEvent (heq.symm.trans hstep)
  · cases heq.symm.trans hstep
    exact htake.tick k
  · exact State.resetEvent_inv (heq.symm.trans hstep)

/-- With a legal `SP` an EXEC has a next state. -/
theorem State.execEvent_next (s : State) (hsp : s.sp.toNat ≤ 16) : ∃ t, s.execEvent = .next t := by
  rcases s.execEvent_cases with ⟨-, heq⟩ | ⟨-, -, heq⟩ | ⟨-, -, -, heq⟩ | ⟨i, -, -, -, heq⟩
  · exact ⟨_, heq⟩
  · exact ⟨_, heq⟩
  · exact ⟨_, heq⟩
  · rcases execOutcome i s with ⟨t, hi, -⟩ | ⟨c, a, -, hi⟩ | ⟨hbig, -⟩
    · exact ⟨t, heq.trans hi⟩
    · exact ⟨_, heq.trans hi⟩
    · omega

/-- Settles O21: EXEC has a next state where `SP` is legal, TICK has one always, and RESET stops for three reasons. -/
theorem onlyABadResetStopsTheModel : Obligations.OnlyABadResetStopsTheModel := by
  intro s hinv
  obtain ⟨hsp, -⟩ := hinv
  rcases step_cases s with ⟨-, heq⟩ | ⟨k, -, heq⟩ | ⟨p, prog, k, hev, heq⟩
  · obtain ⟨t, ht⟩ := s.takeEvent.execEvent_next hsp
    exact .inl ⟨t, heq.trans ht⟩
  · exact .inl ⟨_, heq⟩
  · rcases s.takeEvent.resetEvent_cases p prog k with ⟨bytes, -, -, -, hr⟩ | ⟨hnone, hr⟩ | ⟨bytes, hsome, hlong, hr⟩ |
      ⟨bytes, -, hfont, hr⟩
    · exact .inl ⟨_, heq.trans hr⟩
    · exact .inr ⟨p, prog, k, _, hev, heq.trans hr, .inl hnone⟩
    · exact .inr ⟨p, prog, k, _, hev, heq.trans hr, .inr (.inr ⟨bytes, hsome, hlong⟩)⟩
    · exact .inr ⟨p, prog, k, _, hev, heq.trans hr, .inr (.inl (Nat.not_le.mp (of_decide_eq_false hfont)))⟩

end Sys2Proof.Machine
end

section
/-! PROOFS. Runs of events (R161, R164): any number of TICKs, and the outer tick of the host's schedule. EXEC does not
read the queue, so the machine that takes its events from the queue runs the slots of the schedule. -/

namespace Sys2Proof.Machine

variable {s t : State}

/-! ## TICKs -/

/-- A TICK leaves the display. -/
@[simp] theorem State.tick_disp (s : State) (k : KeySet) : (s.tick k).disp = s.disp := by
  unfold State.tick
  split <;> rfl

/-- A TICK leaves `pc`. -/
@[simp] theorem State.tick_pc (s : State) (k : KeySet) : (s.tick k).pc = s.pc := by
  unfold State.tick
  split <;> rfl

/-- TICKs leave the display. -/
@[simp] theorem State.ticks_disp (s : State) (ks : List KeySet) : (s.ticks ks).disp = s.disp := by
  induction ks generalizing s with
  | nil => rfl
  | cons k ks ih => rw [State.ticks, ih, State.tick_disp]

/-- TICKs leave `pc`. -/
@[simp] theorem State.ticks_pc (s : State) (ks : List KeySet) : (s.ticks ks).pc = s.pc := by
  induction ks generalizing s with
  | nil => rfl
  | cons k ks ih => rw [State.ticks, ih, State.tick_pc]

/-- TICKs of a running block take the delay timer down by their number, and never below 0 (R161). -/
theorem State.ticks_dt_toNat (h : s.run = .running) (ks : List KeySet) :
    (s.ticks ks).dt.toNat = s.dt.toNat - ks.length := by
  induction ks generalizing s with
  | nil => rfl
  | cons k ks ih =>
    have hrun : (s.tick k).run = .running := (s.tick_run k).trans h
    have hdt : (s.tick k).dt.toNat = s.dt.toNat - 1 := by
      rw [State.tick_running s k h, State.latchKeys_dt, State.decrementTimers_dt, countDown_toNat]
    rw [State.ticks, ih hrun, hdt, List.length_cons, Nat.sub_sub, Nat.add_comm]

/-- After TICKs of a running block the snapshot in force is the last one given (R161). -/
theorem State.ticks_keys (h : s.run = .running) (ks : List KeySet) :
    (s.ticks ks).keys = ks.getLast?.getD s.keys := by
  induction ks generalizing s with
  | nil => rfl
  | cons k ks ih =>
    have hrun : (s.tick k).run = .running := (s.tick_run k).trans h
    rw [State.ticks, ih hrun, State.tick_running s k h, State.latchKeys_keys, List.getLast?_cons]
    rfl

/-- Settles O14: by induction on the TICKs, each of which decrements both timers and latches its snapshot. -/
theorem timersReachZeroAndStay : Obligations.TimersReachZeroAndStay :=
  fun s ks h =>
    ⟨State.ticks_dt_toNat h ks, State.ticks_st_toNat h ks, State.ticks_keys h ks, s.ticks_disp ks, s.ticks_pc ks⟩

/-! ## EXEC does not read the queue -/

/-- The state with another queue of events. -/
def State.withQueue (s : State) (q : List Event) : State := { s with pending := q }

/-- A state with the queue it has. -/
theorem State.withQueue_eq_self {q : List Event} (h : s.pending = q) : s.withQueue q = s := by
  subst h
  rfl

/-- A block read is the same with another queue. -/
theorem State.readBytes_withQueue (s : State) (q : List Event) (a n : Nat) :
    (s.withQueue q).readBytes a n = s.readBytes a n :=
  State.readBytes_congr (s := s) (t := s.withQueue q) rfl rfl a n

/-- Loading registers leaves the queue. -/
theorem State.setRegs_withQueue (s : State) (q : List Event) (r : Nat) (bs : List Byte) :
    (s.withQueue q).setRegs r bs = (s.setRegs r bs).withQueue q := by
  induction bs generalizing s r with
  | nil => rfl
  | cons b bs ih => exact ih (s.setReg (BitVec.ofNat 4 r) b) (r + 1)

/-- Drawing leaves the queue. -/
theorem State.drawSprite_withQueue (s : State) (q : List Event) (x y : Reg) (n : Nibble) :
    (s.withQueue q).drawSprite x y n = (s.drawSprite x y n).withQueue q := by
  have hbytes : (s.withQueue q).readBytes (s.withQueue q).i.toNat n.toNat = s.readBytes s.i.toNat n.toNat :=
    s.readBytes_withQueue q _ _
  unfold State.drawSprite
  rw [hbytes]
  rfl

/-- A block load leaves the queue. -/
theorem State.loadBlock_withQueue (s : State) (q : List Event) (a n : Nat) :
    ((s.withQueue q).setRegs 0 ((s.withQueue q).readBytes a n)).advance =
      (s.setRegs 0 (s.readBytes a n)).advance.withQueue q := by
  rw [State.readBytes_withQueue, State.setRegs_withQueue]
  rfl

/-- A ranged instruction whose effect leaves the queue does the same with another queue. -/
theorem exec_withQueue_of_withRange (q : List Event) {i : Instr} {n : Nat} {c : Cause} {e e' : State}
    (hs : exec i s = .next (s.withRange n c i e))
    (hq : exec i (s.withQueue q) = .next ((s.withQueue q).withRange n c i e')) (he : e' = e.withQueue q)
    (h : exec i s = .next t) : exec i (s.withQueue q) = .next (t.withQueue q) := by
  cases hs.symm.trans h
  rw [hq, he]
  have hite := apply_ite (fun u : State => u.withQueue q) (s.inRange n = true) e (s.raiseOob c s.lowestBad i)
  exact congrArg Host.Outcome.next hite.symm

/-- A key skip does the same with another queue. -/
theorem exec_withQueue_of_withKey (q : List Event) {i : Instr} {k : Byte} {e e' : State}
    (hs : exec i s = .next (s.withKey k i e))
    (hq : exec i (s.withQueue q) = .next ((s.withQueue q).withKey k i e')) (he : e' = e.withQueue q)
    (h : exec i s = .next t) : exec i (s.withQueue q) = .next (t.withQueue q) := by
  cases hs.symm.trans h
  rw [hq, he]
  have hite := apply_ite (fun u : State => u.withQueue q) (k.toNat ≤ 15) e (s.raiseOob .keyIndex (zextByte k) i)
  exact congrArg Host.Outcome.next hite.symm

/-- `00EE` does the same with another queue, and leaves it. -/
theorem exec_ret_withQueue (q : List Event) (h : exec .ret s = .next t) :
    exec .ret (s.withQueue q) = .next (t.withQueue q) := by
  rcases execRet_cases s with ⟨h0, heq⟩ | ⟨h1, h16, _, heq⟩ | ⟨-, heq⟩
  · cases heq.symm.trans h
    exact exec_ret_empty (s := s.withQueue q) h0
  · cases heq.symm.trans h
    obtain ⟨_, hlive⟩ := exec_ret_live (s := s.withQueue q) h1 h16
    exact hlive
  · cases heq.symm.trans h

/-- `2nnn` does the same with another queue, and leaves it. -/
theorem exec_call_withQueue (q : List Event) {nnn : Addr} (h : exec (.call nnn) s = .next t) :
    exec (.call nnn) (s.withQueue q) = .next (t.withQueue q) := by
  rcases execCall_cases s nnn with ⟨h16, heq⟩ | ⟨hfree, heq⟩ | ⟨-, heq⟩
  · cases heq.symm.trans h
    exact exec_call_full (s := s.withQueue q) nnn h16
  · cases heq.symm.trans h
    exact exec_call_free (s := s.withQueue q) nnn hfree
  · cases heq.symm.trans h

/-- `Fx0A` does the same with another queue, and leaves it. -/
theorem exec_ldVxK_withQueue (q : List Event) {x : Reg} (h : exec (.ldVxK x) s = .next t) :
    exec (.ldVxK x) (s.withQueue q) = .next (t.withQueue q) := by
  rcases s.lowestKey_cases with ⟨hnone, -⟩ | ⟨k, hsome, -⟩
  · cases (exec_ldVxK_of_none x hnone).symm.trans h
    exact exec_ldVxK_of_none (s := s.withQueue q) x hnone
  · cases (exec_ldVxK_of_some x hsome).symm.trans h
    exact exec_ldVxK_of_some (s := s.withQueue q) x hsome

/-- Every instruction does the same with another queue, and leaves it. -/
theorem exec_withQueue (q : List Event) {i : Instr} (h : exec i s = .next t) :
    exec i (s.withQueue q) = .next (t.withQueue q) := by
  cases i with
  | ret => exact exec_ret_withQueue q h
  | call nnn => exact exec_call_withQueue q h
  | ldVxK x => exact exec_ldVxK_withQueue q h
  | drw x y n =>
    exact exec_withQueue_of_withRange q (exec_drw x y n s) (exec_drw x y n _) (s.drawSprite_withQueue q x y n) h
  | ldB x => exact exec_withQueue_of_withRange q (exec_ldB x s) (exec_ldB x _) rfl h
  | storeRegs x => exact exec_withQueue_of_withRange q (exec_storeRegs x s) (exec_storeRegs x _) rfl h
  | loadRegs x =>
    exact exec_withQueue_of_withRange q (exec_loadRegs x s) (exec_loadRegs x _) (s.loadBlock_withQueue q _ _) h
  | skp x => exact exec_withQueue_of_withKey q (exec_skp x s) (exec_skp x _) rfl h
  | sknp x => exact exec_withQueue_of_withKey q (exec_sknp x s) (exec_sknp x _) rfl h
  | _ =>
    cases h
    rfl

/-- EXEC does the same with another queue, and leaves it. -/
theorem State.execEvent_withQueue (q : List Event) (h : s.execEvent = .next t) :
    (s.withQueue q).execEvent = .next (t.withQueue q) := by
  rcases s.execEvent_cases with ⟨hrun, heq⟩ | ⟨hrun, hf, heq⟩ | ⟨hrun, hf, hd, heq⟩ | ⟨i, hrun, hf, hd, heq⟩
  · cases heq.symm.trans h
    exact State.execEvent_halted (s := s.withQueue q) hrun
  · cases heq.symm.trans h
    exact State.execEvent_badFetch (s := s.withQueue q) hrun hf
  · cases heq.symm.trans h
    exact State.execEvent_unknown (s := s.withQueue q) hrun hf hd
  · exact (State.execEvent_decoded (s := s.withQueue q) hrun hf hd).trans (exec_withQueue q (heq.symm.trans h))

/-- EXEC leaves the queue. -/
theorem State.execEvent_pending (h : s.execEvent = .next t) : t.pending = s.pending := by
  have hsame : s.execEvent = .next (t.withQueue s.pending) := State.execEvent_withQueue s.pending h
  have hqueue : t = t.withQueue s.pending := Host.Outcome.next.inj (h.symm.trans hsame)
  calc t.pending = (t.withQueue s.pending).pending := congrArg State.pending hqueue
    _ = s.pending := rfl

/-! ## Slots of the schedule -/

/-- Slots that have a next state begin with an EXEC that has one. -/
theorem State.execSlots_succ {n : Nat} (h : State.execSlots (n + 1) s = .next t) :
    ∃ u, s.execEvent = .next u ∧ State.execSlots n u = .next t := by
  rw [State.execSlots] at h
  cases hu : s.execEvent with
  | next u =>
    rw [hu] at h
    exact ⟨u, rfl, h⟩
  | fault f => simp [hu] at h
  | refused r => simp [hu] at h

/-- Slots leave the queue. -/
theorem State.execSlots_pending {n : Nat} (h : State.execSlots n s = .next t) : t.pending = s.pending := by
  induction n generalizing s with
  | zero =>
    cases h
    rfl
  | succ n ih =>
    obtain ⟨u, hu, hrest⟩ := State.execSlots_succ h
    rw [ih hrest, State.execEvent_pending hu]

/-- A machine with `n` EXEC events at the head of its queue runs `n` slots and goes on with the rest of the queue. -/
theorem run_slots {n : Nat} (m : Nat) (rest : List Event) (h : State.execSlots n s = .next t) :
    Host.Core.run Sys2Proof.core (n + m) (s.withQueue (List.replicate n .exec ++ rest)) =
      Host.Core.run Sys2Proof.core m (t.withQueue rest) := by
  induction n generalizing s with
  | zero =>
    cases h
    rw [Nat.zero_add]
    rfl
  | succ n ih =>
    obtain ⟨u, hu, hrest⟩ := State.execSlots_succ h
    have hslot := State.execEvent_withQueue (List.replicate n .exec ++ rest) hu
    have hstep : step (s.withQueue (List.replicate (n + 1) .exec ++ rest)) =
        .next (u.withQueue (List.replicate n .exec ++ rest)) := (step_exec rfl).trans hslot
    rw [Nat.add_right_comm, run_succ_of_next _ _ _ hstep, ih hrest]

/-- Settles O15: after the slots the TICK is the next event, and the slots have left the rest of the queue. -/
theorem outerTickRunsSlotsThenTick : Obligations.OuterTickRunsSlotsThenTick := by
  intro ipt s t k later _ h
  have hpending : t.withQueue later = t := State.withQueue_eq_self (State.execSlots_pending h)
  have htick : step (t.withQueue (.tick k :: later)) = .next ((t.withQueue later).tick k) := step_tick rfl
  have hslots := run_slots 1 (.tick k :: later) h
  rw [run_succ_of_next _ _ _ htick, hpending] at hslots
  rw [Event.batch, List.append_assoc]
  exact hslots

end Sys2Proof.Machine
end
